-- ==== Sys2Proof/Word.lean ====
section
/-! DEFINITION. The quantities of the Hawk: word, halfword, byte, nibble (spec/00_scope.md R5, R6). -/

namespace Sys2Proof

/-- A word, 32 bits numbered 31 down to 0 (R5). -/
abbrev Word := BitVec 32

/-- A halfword, 16 bits (R6). -/
abbrev Halfword := BitVec 16

/-- A byte, 8 bits (R6). -/
abbrev Byte := BitVec 8

/-- A four-bit field of the instruction register (30_encoding.md R101), or a level (10_state.md R37). -/
abbrev Nibble := BitVec 4

/-- Every value of a four-bit field. -/
def nibbles : List Nibble := [0#4, 1#4, 2#4, 3#4, 4#4, 5#4, 6#4, 7#4, 8#4, 9#4, 10#4, 11#4, 12#4, 13#4, 14#4, 15#4]

end Sys2Proof
end

