-- ==== Sys2Proof/Syntax.lean ====
section
/-! DEFINITION. The instructions of the Hawk as syntax, one constructor per row of spec/opcode_table.json, and the
language in which the open parameter `Exec` (spec/40_instruction_cycle.md R123) gives an instruction its operation. -/

namespace Sys2Proof

/-- The four four-bit fields of an instruction halfword (30_encoding.md R101, R102), each under one of its names. -/
structure IrFields where
  /-- `ir[7:4]`, `op` -/
  op : Nibble
  /-- `ir[3:0]`, `dst`, `srcx` or `cond` -/
  dst : Nibble
  /-- `ir[15:12]`, `s1` or `op1` -/
  s1 : Nibble
  /-- `ir[11:8]`, `s2`, `x`, `src` or `op2` -/
  s2 : Nibble
deriving DecidableEq, Repr, Inhabited

/-- A field of the halfword that can hold an operand (R102; `op` never does). -/
inductive IrField where
  | dst
  | s1
  | s2
deriving DecidableEq, Repr, Inhabited

/-- The value an instruction halfword has in an operand field. -/
def IrFields.get (f : IrFields) : IrField → Nibble
  | .dst => f.dst
  | .s1 => f.s1
  | .s2 => f.s2

/-- What the op field(s) of a halfword say it is (R105, R110, 40 R123): an invalid operation code, one of the two
instructions chapter 1 names, or any other instruction. -/
inductive OpKind where
  | invalid
  | coget
  | coset
  | other
deriving DecidableEq, Repr, Inhabited

/-- The six special registers (10_state.md R36). -/
inductive SpecialReg where
  | psw
  | tpc
  | tma
  | tsv
  | cyc
  | mmudata
deriving DecidableEq, Repr, Inhabited

/-- The widths a memory access can have (20_memory.md R63 to R65, R73). -/
inductive Width where
  | word
  | half
  | byte
deriving DecidableEq, Repr, Inhabited

/-- The two readings of register number 0 as a source (40 R125). -/
inductive ZeroReading where
  /-- register number 0 reads as the word 0 -/
  | constantZero
  /-- register number 0 reads as the advanced program counter -/
  | programCounter
deriving DecidableEq, Repr, Inhabited

/-- The operation of one instruction, as the open parameter `Exec` gives it: a tree of the primitives that the
obligations (a) to (h) of 40 R123 leave to an instruction. A continuation receives what the primitive yields, so the
rest of the operation is any function of the values read so far, and of nothing else (obligation (h)). There is no
primitive for a coprocessor or COSTAT: those are reached by COGET and COSET only (10_state.md R30, 20_memory.md R66).
The index is how many further halfwords the operation takes on every path that completes: an instruction's length does
not hang on what it reads (30_encoding.md R111). -/
inductive Program : Nat → Type where
  /-- the instruction is complete -/
  | done : Program 0
  /-- read a register field; number 0 has the reading given (40 R125) -/
  | readReg {m : Nat} (n : Nibble) (z : ZeroReading) (k : Word → Program m) : Program m
  /-- write a register field; number 0 discards the value (40 R125) -/
  | writeReg {m : Nat} (n : Nibble) (v : Word) (p : Program m) : Program m
  /-- `pc <- t` (10_state.md R27, 40 R128) -/
  | setPc {m : Nat} (t : Word) (p : Program m) : Program m
  /-- `MemRead(va, n, load)` (20_memory.md R73); a narrow value is padded with zeros -/
  | load {m : Nat} (va : Word) (n : Width) (k : Word → Program m) : Program m
  /-- `MemWrite(va, n, v)` (20_memory.md R73); a narrow store takes the low bits of `v` -/
  | store {m : Nat} (va : Word) (n : Width) (v : Word) (p : Program m) : Program m
  /-- `NextHalfword()` (40 R124) -/
  | nextHalfword {m : Nat} (k : Halfword → Program m) : Program (m + 1)
  /-- read N Z V C (40 R126) -/
  | readCC {m : Nat} (k : Nibble → Program m) : Program m
  /-- write N Z V C (40 R126) -/
  | writeCC {m : Nat} (cc : Nibble) (p : Program m) : Program m
  /-- read the bcd-carry field (10_state.md R41) -/
  | readBcd {m : Nat} (k : Word → Program m) : Program m
  /-- write the bcd-carry field; of an instruction that is no add instruction it has no effect (40 R127) -/
  | writeBcd {m : Nat} (v : Word) (p : Program m) : Program m
  /-- `ReadSpecial(reg)` (42_special_register_access.md R150) -/
  | readSpecial {m : Nat} (reg : SpecialReg) (k : Word → Program m) : Program m
  /-- `WriteSpecial(reg, v)` (42 R150) -/
  | writeSpecial {m : Nat} (reg : SpecialReg) (v : Word) (p : Program m) : Program m
  /-- go on only in privileged code, else raise `PrivilegeTrap` (60_exceptions.md R175, R188) -/
  | requirePrivilege {m : Nat} (p : Program m) : Program m
  /-- an explicit draw: a value nothing constrains (40 R123 (h)) -/
  | draw {m : Nat} (k : Word → Program m) : Program m
  /-- the halfwords turn out to be an invalid longer instruction (30 R110) -/
  | raiseInvalid {m : Nat} : Program m
  /-- the end of a return from trap (60 R185), which takes privileged code (log 18); what becomes of `psw.prior` is the
  instruction's own affair -/
  | trapReturn (newPrior : Nibble → Nibble) : Program 0
deriving Inhabited

/-- What `Decode` and `Exec` give an instruction other than COGET and COSET: its `Length` less 1 (30_encoding.md R111),
and an operation that takes so many further halfwords. -/
structure Operation where
  further : Nat
  program : Program further
deriving Inhabited

/-- The instructions, one constructor per row of spec/opcode_table.json. -/
inductive Instr where
  /-- row `any_instruction_halfword` (40 R123): any valid instruction other than COGET and COSET, as the fields of
  its first halfword -/
  | anyInstructionHalfword (f : IrFields)
  /-- row `COGET` (41_coprocessor.md R140): general register `dst` from coprocessor register `k` -/
  | coget (dst k : Nibble)
  /-- row `COSET` (41 R141): coprocessor register `k` from general register `src` -/
  | coset (src k : Nibble)
deriving DecidableEq, Repr

end Sys2Proof
end

