-- ==== Sys2Proof/Config.lean ====
section
/-! DEFINITION. What the spec leaves open (spec/00_scope.md R4, 10_state.md R56) and the free values, as a structure
`Config` of parameters. The machine itself takes `Config.platform`, each of whose parameters is an opaque constant
without a body, so nothing can be proved of its value (log 1). A constraint the spec puts on a parameter is built in
where the parameter is used (Machine/Flags.lean, Machine/Ops.lean), never assumed. -/

namespace Sys2Proof

/-- The kind of a memory access (20_memory.md R73). -/
inductive AccessKind where
  | fetch
  | load
  | store
deriving DecidableEq, Repr, Inhabited

/-- The reasons for an MMU trap (10_state.md R47, 20_memory.md R78). -/
inductive MmuReason where
  | nomatch
  | invalid
  | fetch
  | load
  | store
deriving DecidableEq, Repr, Inhabited

/-- The reasons for a bus trap that the surviving text names (10_state.md R46; log 19). -/
inductive BusReason where
  | oddPc
  | nonexistent
deriving DecidableEq, Repr, Inhabited

/-- The kinds of event that enter a trap-service routine (00_scope.md R12, 60_exceptions.md R176). -/
inductive TrapKind where
  | bus
  | mmu
  | coprocessor
  | invalidOpcode
  | privilege
  | interrupt
deriving DecidableEq, Repr, Inhabited

/-- What a write through destination field 0 does where an instruction allows it (40_instruction_cycle.md R125). -/
inductive ZeroDst where
  /-- the value is discarded -/
  | discard
  /-- the write is `pc <- v`, with the odd-target check -/
  | jump
deriving DecidableEq, Repr, Inhabited

/-- One coprocessor: its registers 1 to 15 (10_state.md R33; register k stands at index k - 1) and whatever state of
its own it has (R54), coded as a number (log 14). -/
structure CoUnit where
  regs : Vector Word 15
  inner : Nat
deriving DecidableEq, Repr, Inhabited

/-- One mapping register of the memory-management unit (20_memory.md R75). -/
structure MapEntry where
  vpn : BitVec 20
  ppn : BitVec 20
  c : Bool
  r : Bool
  w : Bool
  x : Bool
  v : Bool
deriving DecidableEq, Repr, Inhabited

/-- `ResetState` (70_reset_and_hazards.md R200): what every piece of state holds after reset (the table of 10_state.md
R57). The constraints of R201 are put on it where it is used, by `resetIn` in Machine/Reset.lean. -/
structure ResetValues where
  /-- `RESET_PC`, all but its bit 0, which is 0 (10 R57) -/
  pcHigh : BitVec 31
  /-- `RESET_LEVEL` (10 R57) -/
  level : Nibble
  /-- the other bits of the PSW -/
  pswRest : BitVec 28
  regs : Vector Word 15
  costat : Word
  tpc : Word
  tma : Word
  tsv : Word
  cyc : Word
  mmu : List MapEntry
  ir : Halfword
  irq : List Nat
  co : Vector CoUnit 7
  /-- "given by the launch (the program image)" (10 R57): bytes by physical address -/
  image : List (Nat × Byte)
deriving DecidableEq, Repr, Inhabited

/-- The parameters of 00_scope.md R4. -/
structure Config where
  /-- `Real`: which words of physical memory exist (20 R72) -/
  real : BitVec 30 → Bool
  /-- `CoPresent` (10 R33); the value at 0 is never used, there being no coprocessor 0 -/
  coPresent : BitVec 3 → Bool
  /-- `CoRegs`: which registers a coprocessor has (10 R33) -/
  coRegs : BitVec 3 → Nibble → Bool
  /-- `CoInstrImplemented` (41 R144); counted as true where a coprocessor is present -/
  coInstrImplemented : Bool
  /-- `CoRead` (41 R147): coprocessor, register, `costat.coop` and state to the word read and the state after -/
  coRead : BitVec 3 → Nibble → Nibble → CoUnit → Word × CoUnit
  /-- `CoWrite` (41 R147) -/
  coWrite : BitVec 3 → Nibble → Nibble → Word → CoUnit → CoUnit
  /-- the unspecified contents of a coprocessor (10 R34, 41 R146), one for each draw -/
  coAny : Nat → CoUnit
  /-- `NMAP` is this plus one (20 R84: at least one mapping register) -/
  nmapLess1 : Nat
  /-- `Decode`, its first half: what the op, op1 and op2 fields say (30 R105) -/
  opKind : Nibble → Nibble → Nibble → OpKind
  /-- which field of the halfword holds COGET's destination (41 R140; log 3) -/
  cogetDst : IrField
  /-- which field holds COGET's coprocessor register number (41 R140) -/
  cogetReg : IrField
  /-- which field holds COSET's source (41 R141) -/
  cosetSrc : IrField
  /-- which field holds COSET's coprocessor register number (41 R141) -/
  cosetReg : IrField
  /-- `Length` less 1 of a halfword that is a COGET or a COSET (30 R111; log 4) -/
  coFurther : IrFields → Nat
  /-- what COGET's destination 0 means (41 R140) -/
  cogetZero : ZeroDst
  /-- what COSET's source 0 means (41 R141) -/
  cosetZero : ZeroReading
  /-- `Exec` and `Length`: the operation of every other instruction (40 R123, 30 R111) -/
  operation : IrFields → Operation
  /-- which instructions are "add instructions" (40 R127) -/
  isAdd : IrFields → Bool
  /-- `TRAP_VECTOR`, all but its bit 0, which is 0 (60 R183) -/
  trapVectorHigh : TrapKind → BitVec 31
  /-- `TRAP_LEVEL`, all but its bit 3, which is 0 (60 R182) -/
  trapLevelLow : TrapKind → Nibble → BitVec 3
  /-- `IsPrivileged` (42 R158), to which every value of `TRAP_LEVEL` is added (60 R182) -/
  isPrivileged : Nibble → Bool
  /-- `IrqEnabled(level, request)` (60 R177) -/
  irqEnabled : Nibble → Nat → Bool
  /-- the requests outstanding before a pass, one set for each draw (60 R177) -/
  irqInput : Nat → List Nat
  /-- `BUS_CAUSE(nonexistent)` (10 R46) -/
  busCauseNonexistent : BitVec 2
  /-- `MMU_CAUSE` (10 R47) -/
  mmuCause : MmuReason → BitVec 2
  /-- `BUS_TMA_VIRTUAL` (20 R72) -/
  busTmaVirtual : Bool
  /-- `CYC_COUNTS_FAULTING` (20 R86) -/
  cycCountsFaulting : Bool
  /-- gives `lo` of `PSW_BCD` (10 R37) by `bcdLo` -/
  bcdLoRaw : Nat
  /-- gives `hi` of `PSW_BCD` by `bcdHi` -/
  bcdSpanRaw : Nat
  /-- the free values: what the n-th draw of `any` yields (00 R12) -/
  free : Nat → Word
  /-- `ResetState` with `RESET_PC` and `RESET_LEVEL` (10 R57, 70 R201) -/
  reset : ResetValues

/-! The opaque constants, one for each parameter. -/

opaque Platform.real : BitVec 30 → Bool
opaque Platform.coPresent : BitVec 3 → Bool
opaque Platform.coRegs : BitVec 3 → Nibble → Bool
opaque Platform.coInstrImplemented : Bool
opaque Platform.coRead : BitVec 3 → Nibble → Nibble → CoUnit → Word × CoUnit
opaque Platform.coWrite : BitVec 3 → Nibble → Nibble → Word → CoUnit → CoUnit
opaque Platform.coAny : Nat → CoUnit
opaque Platform.nmapLess1 : Nat
opaque Platform.opKind : Nibble → Nibble → Nibble → OpKind
opaque Platform.cogetDst : IrField
opaque Platform.cogetReg : IrField
opaque Platform.cosetSrc : IrField
opaque Platform.cosetReg : IrField
opaque Platform.coFurther : IrFields → Nat
opaque Platform.cogetZero : ZeroDst
opaque Platform.cosetZero : ZeroReading
opaque Platform.operation : IrFields → Operation
opaque Platform.isAdd : IrFields → Bool
opaque Platform.trapVectorHigh : TrapKind → BitVec 31
opaque Platform.trapLevelLow : TrapKind → Nibble → BitVec 3
opaque Platform.isPrivileged : Nibble → Bool
opaque Platform.irqEnabled : Nibble → Nat → Bool
opaque Platform.irqInput : Nat → List Nat
opaque Platform.busCauseNonexistent : BitVec 2
opaque Platform.mmuCause : MmuReason → BitVec 2
opaque Platform.busTmaVirtual : Bool
opaque Platform.cycCountsFaulting : Bool
opaque Platform.bcdLoRaw : Nat
opaque Platform.bcdSpanRaw : Nat
opaque Platform.free : Nat → Word
opaque Platform.reset : ResetValues

/-- The machine's own configuration: every parameter open. -/
def Config.platform : Config where
  real := Platform.real
  coPresent := Platform.coPresent
  coRegs := Platform.coRegs
  coInstrImplemented := Platform.coInstrImplemented
  coRead := Platform.coRead
  coWrite := Platform.coWrite
  coAny := Platform.coAny
  nmapLess1 := Platform.nmapLess1
  opKind := Platform.opKind
  cogetDst := Platform.cogetDst
  cogetReg := Platform.cogetReg
  cosetSrc := Platform.cosetSrc
  cosetReg := Platform.cosetReg
  coFurther := Platform.coFurther
  cogetZero := Platform.cogetZero
  cosetZero := Platform.cosetZero
  operation := Platform.operation
  isAdd := Platform.isAdd
  trapVectorHigh := Platform.trapVectorHigh
  trapLevelLow := Platform.trapLevelLow
  isPrivileged := Platform.isPrivileged
  irqEnabled := Platform.irqEnabled
  irqInput := Platform.irqInput
  busCauseNonexistent := Platform.busCauseNonexistent
  mmuCause := Platform.mmuCause
  busTmaVirtual := Platform.busTmaVirtual
  cycCountsFaulting := Platform.cycCountsFaulting
  bcdLoRaw := Platform.bcdLoRaw
  bcdSpanRaw := Platform.bcdSpanRaw
  free := Platform.free
  reset := Platform.reset

end Sys2Proof
end

