-- ==== Sys2Proof/WellFormed.lean ====
section
/-! DEFINITION. Which instructions a configuration can encode at all. The opcode map is open (spec/30_encoding.md
R109), so an instruction is well formed where some halfword stands for it under the map (log 24). -/

namespace Sys2Proof

/-- Some halfword has op, op1 and op2 fields of the kind given and fields that pass the check. -/
def someFields (c : Config) (kind : OpKind) (ok : IrFields → Bool) : Bool :=
  nibbles.any fun op => nibbles.any fun s1 => nibbles.any fun s2 =>
    c.opKind op s1 s2 == kind && nibbles.any fun d => ok ⟨op, d, s1, s2⟩

/-- The check of an instruction's operands: its fields are those of a halfword that the opcode map gives to it. -/
def wellFormed (c : Config) : Instr → Bool
  | .anyInstructionHalfword f => c.opKind f.op f.s1 f.s2 == .other
  | .coget dst k => someFields c .coget fun f => f.get c.cogetDst == dst && f.get c.cogetReg == k
  | .coset src k => someFields c .coset fun f => f.get c.cosetSrc == src && f.get c.cosetReg == k

end Sys2Proof
end

