-- ==== Sys2Proof/Decode.lean ====
section
/-! DEFINITION. From bytes to instructions and back (spec/30_encoding.md). The layout of the halfword is the spec's
(R101 to R104); what the op fields select is the open opcode map of the configuration (R109, log 3). -/

namespace Sys2Proof

/-- The fields of an instruction halfword (R102). -/
def splitHalfword (h : Halfword) : IrFields where
  op := h.extractLsb' 4 4
  dst := h.extractLsb' 0 4
  s1 := h.extractLsb' 12 4
  s2 := h.extractLsb' 8 4

/-- The halfword with given fields, `s1 s2 op dst` from the most significant nibble (R104). -/
def joinFields (f : IrFields) : Halfword := f.s1 ++ f.s2 ++ f.op ++ f.dst

/-- `const` or `disp`, the second byte of the halfword, `ir[15:8]` (R103). -/
def constField (f : IrFields) : Byte := f.s1 ++ f.s2

/-- The bytes of a halfword in address order: bits 7 to 0 at the lower address (R104, 20_memory.md R67). -/
def halfwordBytes (h : Halfword) : List Byte := [h.extractLsb' 0 8, h.extractLsb' 8 8]

/-- The halfword of two bytes in address order. -/
def bytesHalfword (b0 b1 : Byte) : Halfword := b1 ++ b0

/-- Why bytes are no instruction. -/
inductive DecodeError where
  /-- fewer than the two bytes of a halfword (R100) -/
  | tooShort
  /-- the op field(s) are an invalid operation code (R110); the machine takes the trap of 60_exceptions.md R174 -/
  | invalidOpcode (f : IrFields)
deriving DecidableEq, Repr

/-- `Decode` (40_instruction_cycle.md R123): the op field(s) say which instruction it is (R105), the other fields are
its operands (R106). -/
def decodeFields (c : Config) (f : IrFields) : Except DecodeError Instr :=
  match c.opKind f.op f.s1 f.s2 with
  | .invalid => .error (.invalidOpcode f)
  | .coget => .ok (.coget (f.get c.cogetDst) (f.get c.cogetReg))
  | .coset => .ok (.coset (f.get c.cosetSrc) (f.get c.cosetReg))
  | .other => .ok (.anyInstructionHalfword f)

/-- `Length` (R111): how many halfwords an instruction has, which its first halfword says; an invalid operation code
is the one halfword that is fetched. -/
def lengthOf (c : Config) (h : Halfword) : Nat :=
  match decodeFields c (splitHalfword h) with
  | .ok (.anyInstructionHalfword f) => (c.operation f).further + 1
  | .ok (.coget _ _) => c.coFurther (splitHalfword h) + 1
  | .ok (.coset _ _) => c.coFurther (splitHalfword h) + 1
  | .error _ => 1

/-- Decoding takes the first halfword alone (R100) and leaves the bytes after it. -/
def decode (c : Config) : List Byte → Except DecodeError (Instr × List Byte)
  | b0 :: b1 :: rest =>
    match decodeFields c (splitHalfword (bytesHalfword b0 b1)) with
    | .ok i => .ok (i, rest)
    | .error e => .error e
  | _ => .error .tooShort

/-- The first halfword, in the order of its fields, of the kind given whose fields pass the check. -/
def findFields (c : Config) (kind : OpKind) (ok : IrFields → Bool) : Option IrFields :=
  nibbles.findSome? fun op => nibbles.findSome? fun s1 => nibbles.findSome? fun s2 =>
    if c.opKind op s1 s2 == kind then
      nibbles.findSome? fun d => if ok ⟨op, d, s1, s2⟩ then some ⟨op, d, s1, s2⟩ else none
    else none

/-- The first halfword of an instruction (the only one that is decoded), where the opcode map has one for it. -/
def encode (c : Config) : Instr → Option Halfword
  | .anyInstructionHalfword f => if c.opKind f.op f.s1 f.s2 == .other then some (joinFields f) else none
  | .coget dst k =>
    (findFields c .coget fun f => f.get c.cogetDst == dst && f.get c.cogetReg == k).map joinFields
  | .coset src k =>
    (findFields c .coset fun f => f.get c.cosetSrc == src && f.get c.cosetReg == k).map joinFields

/-- The bytes of an instruction whose bits are `w`, the first halfword at the lowest address. -/
def tableBytes : Nat → Nat → List Byte
  | 0, _ => []
  | n + 1, w => BitVec.ofNat 8 w :: tableBytes n (w / 256)

/-- The instruction the machine's decoder reads from an instruction of `nbits` bits whose bits are `w`. -/
def decodeTableWord (nbits w : Nat) : Option Instr :=
  match decode Config.platform (tableBytes ((nbits + 7) / 8) w) with
  | .ok (i, _) => some i
  | .error _ => none

end Sys2Proof
end

