-- ==== Sys2Proof/Machine/State.lean ====
section
/-! DEFINITION. The state of the Hawk as plain data (spec/10_state.md), its value after reset, and the reasons a step
can stop (none). -/

namespace Sys2Proof.Machine

open Sys2Proof

/-- Physical memory (10_state.md R55) as the bytes that differ from what an unlisted byte reads as, by address. -/
abbrev Memory := List Host.Cell

/-- Everything the spec gives the machine. MMUDATA is no register of its own but a window on `mmu` (R50). -/
structure State where
  /-- `r[1]` to `r[15]` (R21): register n stands at index n - 1, and there is no register 0 (R22) -/
  regs : Vector Word 15
  /-- program counter (R25) -/
  pc : Word
  /-- processor status word (R37) -/
  psw : Word
  /-- coprocessor status register (R30) -/
  costat : Word
  /-- trap program counter (R44) -/
  tpc : Word
  /-- trap memory address (R45) -/
  tma : Word
  /-- trap save register (R48) -/
  tsv : Word
  /-- cycle counter (R49) -/
  cyc : Word
  /-- the mapping registers of the memory-management unit (R51) -/
  mmu : List MapEntry
  /-- instruction register (R52) -/
  ir : Halfword
  /-- the interrupt requests outstanding (R53); the order and repetition of the list have no meaning -/
  irq : List Nat
  /-- the coprocessors (R33, R54): coprocessor c stands at index c - 1 -/
  co : Vector CoUnit 7
  /-- main memory (R55) -/
  mem : Memory
  /-- the model's own: how many free values have been drawn (log 7) -/
  draws : Nat
deriving DecidableEq, Repr

/-- The reasons for which the machine stops: there are none. Every trap of the spec is a next state
(60_exceptions.md R179), and "the cycle has no exit" (40_instruction_cycle.md R120; log 26). -/
inductive Fault where
deriving DecidableEq, Repr

/-- The reasons for which the model declines an instruction. -/
inductive Refusal where
  /-- Raised by an arm of `exec` for an instruction of the table that has no meaning yet; safe, since nothing can be
  proved of its effect. No arm raises it. -/
  | notModelled (mnemonic : String)
deriving DecidableEq, Repr

/-- The machine right after reset. The spec gives no reset value of anything (10_state.md R57, 70 R200); each value
here is a DESIGN CHOICE of log 5 (memory: log 6): it is the state `resetWith` of Machine/Reset.lean for the reset values
that are all 0. The open `ResetState` of the spec is the parameter `Config.reset`. -/
def State.reset : State where
  regs := Vector.replicate 15 0#32
  pc := 0#32
  psw := 0#32
  costat := 0#32
  tpc := 0#32
  tma := 0#32
  tsv := 0#32
  cyc := 0#32
  mmu := []
  ir := 0#16
  irq := []
  co := Vector.replicate 7 ⟨Vector.replicate 15 0#32, 0⟩
  mem := []
  draws := 0

end Sys2Proof.Machine
end

