-- ==== Sys2Proof/Machine/Flags.lean ====
section
/-! DEFINITION. The fields of the processor status word (spec/10_state.md R37 to R43): the condition codes, the bcd
carry, level and prior, and who is privileged. The spec gives no rule by which any instruction computes a flag (R39,
R126), so there is none here. -/

namespace Sys2Proof.Machine

open Sys2Proof

/-- `psw.level`, bits 31:28 (R37). -/
def levelOf (psw : Word) : Nibble := psw.extractLsb' 28 4

/-- `psw.prior`, bits 27:24 (R37). -/
def priorOf (psw : Word) : Nibble := psw.extractLsb' 24 4

/-- The condition codes N Z V C, bits 3:0 (R37, R38). -/
def ccOf (psw : Word) : Nibble := psw.extractLsb' 0 4

/-- `psw.N` (R37). -/
def flagN (psw : Word) : Bool := psw.getLsbD 3

/-- `psw.Z` (R37). -/
def flagZ (psw : Word) : Bool := psw.getLsbD 2

/-- `psw.V` (R37). -/
def flagV (psw : Word) : Bool := psw.getLsbD 1

/-- `psw.C` (R37). -/
def flagC (psw : Word) : Bool := psw.getLsbD 0

/-- `lo` of `PSW_BCD`: any value from 4 to 23 (R37). -/
def bcdLo (c : Config) : Nat := 4 + c.bcdLoRaw % 20

/-- `hi` of `PSW_BCD`: any value from `lo` to 23 (R37). -/
def bcdHi (c : Config) : Nat := bcdLo c + c.bcdSpanRaw % (24 - bcdLo c)

/-- The bits of the bcd-carry field. -/
def bcdMask (c : Config) : Word := (BitVec.allOnes 32 >>> (31 - (bcdHi c - bcdLo c))) <<< bcdLo c

/-- The bits of the PSW that some field uses; the others are "unused" (R43). -/
def pswMask (c : Config) : Word := 0xFF00000F#32 ||| bcdMask c

/-- The PSW with another `level`. -/
def withLevel (psw : Word) (l : Nibble) : Word := l ++ psw.extractLsb' 0 28

/-- The PSW with another `prior`. -/
def withPrior (psw : Word) (p : Nibble) : Word := psw.extractLsb' 28 4 ++ p ++ psw.extractLsb' 0 24

/-- The PSW with other condition codes. -/
def withCC (psw : Word) (cc : Nibble) : Word := psw.extractLsb' 4 28 ++ cc

/-- `psw.bcdcarry` as a number (R41). -/
def bcdOf (c : Config) (psw : Word) : Word := (psw &&& bcdMask c) >>> bcdLo c

/-- The PSW with another `bcdcarry`, of which the field takes the low bits. -/
def withBcd (c : Config) (psw v : Word) : Word := (psw &&& ~~~bcdMask c) ||| ((v <<< bcdLo c) &&& bcdMask c)

/-- The memory-management unit is on exactly when `psw.level[3] = 1` (20_memory.md R74). -/
def unitOn (psw : Word) : Bool := (levelOf psw).getLsbD 3

/-- `TRAP_LEVEL(kind, old)`, whose bit 3 is clear (60_exceptions.md R182). -/
def trapLevel (c : Config) (k : TrapKind) (old : Nibble) : Nibble := 0#1 ++ c.trapLevelLow k old

/-- Every kind of event. -/
def allTrapKinds : List TrapKind := [.bus, .mmu, .coprocessor, .invalidOpcode, .privilege, .interrupt]

/-- `IsPrivileged(level)` (42_special_register_access.md R158); every level that trap entry gives is privileged
(60_exceptions.md R182). -/
def privileged (c : Config) (l : Nibble) : Bool :=
  c.isPrivileged l || allTrapKinds.any fun k => nibbles.any fun old => trapLevel c k old == l

end Sys2Proof.Machine
end

