-- ==== Sys2Proof/Machine/Operands.lean ====
section
/-! DEFINITION. Operands: the general registers and the readings of register number 0 (spec/40_instruction_cycle.md
R125), the constant field, and the operators of the spec's notation (spec/00_scope.md R8 to R11). -/

namespace Sys2Proof.Machine

open Sys2Proof

/-- The word at register n's place (R21); of number 0, which has none, nothing is ever asked. -/
def readStored (s : State) (n : Nibble) : Word := (s.regs[n.toNat - 1]?).getD 0#32

/-- `r[n] <- v` for n from 1 to 15. -/
def writeStored (s : State) (n : Nibble) (v : Word) : State :=
  { s with regs := s.regs.setIfInBounds (n.toNat - 1) v }

/-- `ReadReg_zero` and `ReadReg_pc` (R125). -/
def readReg (s : State) (n : Nibble) (z : ZeroReading) : Word :=
  if n = 0#4 then
    match z with
    | .constantZero => 0#32
    | .programCounter => s.pc
  else readStored s n

/-- `WriteReg_discard` (R125). -/
def writeReg (s : State) (n : Nibble) (v : Word) : State :=
  if n = 0#4 then s else writeStored s n v

/-- `Const_16` (R125, 30_encoding.md R106): a field used as a count, in which 0 encodes 16. -/
def const16 (n : Nibble) : Nat := if n = 0#4 then 16 else n.toNat

/-- `sx` to a word (00 R11). -/
def sext (v : BitVec n) : Word := v.signExtend 32

/-- The padding with zeros implied where `sx` is not used (00 R11, 30 R107). -/
def zext (v : BitVec n) : Word := v.zeroExtend 32

/-- `a ≡ b`, bit by bit (00 R8). -/
def equivWord (a b : Word) : Word := ~~~(a ^^^ b)

/-- The left shift (00 R9); a count of 32 or more has no result (93_implementation_defined.md U12). -/
def shiftLeft (a : Word) (b : Nat) : Option Word := if b < 32 then some (a <<< b) else none

/-- The unsigned right shift, zeros shifted in (00 R9). -/
def shiftRightUnsigned (a : Word) (b : Nat) : Option Word := if b < 32 then some (a >>> b) else none

/-- The signed right shift, copies of the sign shifted in (00 R9). -/
def shiftRightSigned (a : Word) (b : Nat) : Option Word := if b < 32 then some (a.sshiftRight b) else none

/-- `a:b:c`, bits b down to c (00 R10). -/
def selectBits (a : Word) (b c : Nat) : BitVec (b - c + 1) := a.extractLsb' c (b - c + 1)

end Sys2Proof.Machine
end

