-- ==== Sys2Proof/Machine/Ops.lean ====
section
/-! DEFINITION. The named operations every instruction is made of: memory (spec/20_memory.md), the memory-management
unit, the special registers (spec/42_special_register_access.md), the coprocessors (spec/41_coprocessor.md), setting
the pc, and taking a trap and returning from one (spec/60_exceptions.md). -/

namespace Sys2Proof.Machine

open Sys2Proof

/-! ### An instruction in progress -/

/-- An instruction in progress: the state so far, and how many memory operations have counted in `cyc` (R86), which is
all that is left of it when it traps (60 R184). -/
structure Work where
  st : State
  ops : Nat
deriving DecidableEq, Repr

/-- What `raise` names (00_scope.md R12): the kind of trap with the address and the reason code it records. -/
inductive Trap where
  | bus (addr : Word) (cause : BitVec 2)
  | mmu (addr : Word) (cause : BitVec 2)
  | coprocessor
  | invalidOpcode
  | privilege
  | interrupt
deriving DecidableEq, Repr

/-- The kind of a trap (60 R176). -/
def trapKind : Trap → TrapKind
  | .bus _ _ => .bus
  | .mmu _ _ => .mmu
  | .coprocessor => .coprocessor
  | .invalidOpcode => .invalidOpcode
  | .privilege => .privilege
  | .interrupt => .interrupt

/-- What one operation of an instruction gives: a value, or the trap that abandons the instruction. -/
inductive Result (α : Type) where
  | ok (a : α) (w : Work)
  | trap (t : Trap) (w : Work)
deriving Repr

/-- One operation after another; a trap ends the sequence. -/
def andThen {α β : Type} (r : Result α) (k : α → Work → Result β) : Result β :=
  match r with
  | .ok a w => k a w
  | .trap t w => .trap t w

/-- The state in progress changed by an operation that cannot trap. -/
def updated (w : Work) (f : State → State) : Work := { w with st := f w.st }

/-- A draw of `any` (00 R12): the free value, and the state in which it has been drawn. -/
def drawWord (c : Config) (s : State) : Word × State := (c.free s.draws, { s with draws := s.draws + 1 })

/-! ### Address fields -/

/-- `a.page` (R60). -/
def pageOf (a : Word) : BitVec 20 := a.extractLsb' 12 20

/-- `a.wip` (R60). -/
def wipOf (a : Word) : BitVec 10 := a.extractLsb' 2 10

/-- `a.byte` (R60). -/
def byteOf (a : Word) : BitVec 2 := a.extractLsb' 0 2

/-- `a.word` (R60). -/
def wordOf (a : Word) : BitVec 30 := a.extractLsb' 2 30

/-! ### Physical memory -/

/-- What a byte that is not listed reads as (log 6). -/
def unlistedByte : Byte := 0#8

/-- The canonical form of memory: addresses of the 32-bit space, strictly rising, and no entry that says what an
unlisted byte reads as anyway. -/
abbrev Memory.wf (m : Memory) : Prop :=
  m.Pairwise (fun a b => a.1 < b.1) ∧ ∀ x ∈ m, x.1 < 2 ^ 32 ∧ x.2 ≠ unlistedByte

/-- The byte at a physical address (R64). -/
def readByte : Memory → Nat → Byte
  | [], _ => unlistedByte
  | x :: m, a => if x.1 = a then x.2 else readByte m a

/-- A new entry at its place. -/
def insertCell : Memory → Nat → Byte → Memory
  | [], a, v => [(a, v)]
  | x :: m, a, v => if a < x.1 then (a, v) :: x :: m else x :: insertCell m a v

/-- The byte at a physical address replaced. -/
def writeByte (m : Memory) (a : Nat) (v : Byte) : Memory :=
  let rest := m.filter fun x => x.1 != a
  if v = unlistedByte then rest else insertCell rest a v

/-- The lowest address of what an access reaches: a word access ignores the low two bits of the address, a halfword
access the lowest (R63, R65, R68). -/
def accessBase (n : Width) (a : Word) : Nat :=
  match n with
  | .word => 4 * (a.toNat / 4)
  | .half => 2 * (a.toNat / 2)
  | .byte => a.toNat

/-- How many bytes an access reaches (R73). -/
def accessSize : Width → Nat
  | .word => 4
  | .half => 2
  | .byte => 1

/-- `Memory[w]`, the word at a word address (R63), of its four bytes in little-endian order (R67). -/
def memoryWord (m : Memory) (w : BitVec 30) : Word :=
  readByte m (4 * w.toNat + 3) ++ readByte m (4 * w.toNat + 2) ++ readByte m (4 * w.toNat + 1) ++
    readByte m (4 * w.toNat)

/-- The word, halfword or byte that a physical address refers to (R63 to R65, R67), padded with zeros. -/
def loadBytes (m : Memory) (pa : Word) (n : Width) : Word :=
  let a := accessBase n pa
  match n with
  | .word => readByte m (a + 3) ++ readByte m (a + 2) ++ readByte m (a + 1) ++ readByte m a
  | .half => (readByte m (a + 1) ++ readByte m a).zeroExtend 32
  | .byte => (readByte m a).zeroExtend 32

/-- The word, halfword or byte that a physical address refers to replaced; other bits of the word are kept (R73). -/
def storeBytes (m : Memory) (pa : Word) (n : Width) (v : Word) : Memory :=
  let a := accessBase n pa
  match n with
  | .word =>
    writeByte (writeByte (writeByte (writeByte m a (v.extractLsb' 0 8)) (a + 1) (v.extractLsb' 8 8))
      (a + 2) (v.extractLsb' 16 8)) (a + 3) (v.extractLsb' 24 8)
  | .half => writeByte (writeByte m a (v.extractLsb' 0 8)) (a + 1) (v.extractLsb' 8 8)
  | .byte => writeByte m a (v.extractLsb' 0 8)

/-! ### The memory-management unit -/

/-- `NMAP`, at least 1 (R84). -/
def nmap (c : Config) : Nat := c.nmapLess1 + 1

/-- The mapping register of a page, if there is one (R76). -/
def lookupPage (mmu : List MapEntry) (p : BitVec 20) : Option MapEntry := mmu.find? fun e => e.vpn == p

/-- `Allowed(e, kind)` (R77), the V bit apart. -/
def allowed (e : MapEntry) : AccessKind → Bool
  | .fetch => e.x
  | .load => e.r
  | .store => e.w

/-- The reason of a violation of rights (R76). -/
def rightsReason : AccessKind → MmuReason
  | .fetch => .fetch
  | .load => .load
  | .store => .store

/-- `Translate(va, kind)` (R76). -/
def translate (c : Config) (kind : AccessKind) (va : Word) (s : State) : Except Trap Word :=
  if unitOn s.psw then
    match lookupPage s.mmu (pageOf va) with
    | none => .error (.mmu va (c.mmuCause .nomatch))
    | some e =>
      if e.v then
        if allowed e kind then .ok (e.ppn ++ va.extractLsb' 0 12)
        else .error (.mmu va (c.mmuCause (rightsReason kind)))
      else .error (.mmu va (c.mmuCause .invalid))
  else .ok va

/-- `BUS_CAUSE`, with the one code the source states (10_state.md R46). -/
def busCause (c : Config) : BusReason → BitVec 2
  | .oddPc => 1#2
  | .nonexistent => c.busCauseNonexistent

/-- A memory operation counted (R86). -/
def countOp (w : Work) : Work := { st := { w.st with cyc := w.st.cyc + 1#32 }, ops := w.ops + 1 }

/-- A memory operation that ends in a trap, counted or not (R86, `CYC_COUNTS_FAULTING`). -/
def countFaulting (c : Config) (w : Work) : Work := if c.cycCountsFaulting then countOp w else w

/-- What `MemRead` and `MemWrite` have in common (R73): translation, the bus check (R72), the count (R86); it gives
the physical address. -/
def access (c : Config) (kind : AccessKind) (va : Word) (w : Work) : Result Word :=
  match translate c kind va w.st with
  | .error t => .trap t (countFaulting c w)
  | .ok pa =>
    if c.real (wordOf pa) then .ok pa (countOp w)
    else .trap (.bus (if c.busTmaVirtual then va else pa) (busCause c .nonexistent)) (countFaulting c w)

/-- `MemRead(va, n, kind)` (R73). -/
def memRead (c : Config) (kind : AccessKind) (va : Word) (n : Width) (w : Work) : Result Word :=
  andThen (access c kind va w) fun pa w => .ok (loadBytes w.st.mem pa n) w

/-- `MemWrite(va, n, v)` (R73). -/
def memWrite (c : Config) (va : Word) (n : Width) (v : Word) (w : Work) : Result Unit :=
  andThen (access c .store va w) fun pa w =>
    .ok () (updated w fun s => { s with mem := storeBytes s.mem pa n v })

/-- The ppn and the rights of a mapping register at their places in MMUDATA (10_state.md R50, R75). -/
def entryWord (e : MapEntry) : Word :=
  e.ppn ++ (0#7 ++ BitVec.ofBool e.c ++ BitVec.ofBool e.r ++ BitVec.ofBool e.w ++ BitVec.ofBool e.x ++
    BitVec.ofBool e.v)

/-- The mapping register that a word written to MMUDATA describes for a page (R81). -/
def wordEntry (p : BitVec 20) (d : Word) : MapEntry where
  vpn := p
  ppn := d.extractLsb' 12 20
  c := d.getLsbD 4
  r := d.getLsbD 3
  w := d.getLsbD 2
  x := d.getLsbD 1
  v := d.getLsbD 0

/-- The bits of MMUDATA that a mapping register holds (R80). -/
def mmuDataMask : Word := 0xFFFFF01F#32

/-- `ReadMMUDATA()` (R80): without a match only V is promised. -/
def readMmuData (c : Config) (s : State) : Word × State :=
  let (any, s') := drawWord c s
  match lookupPage s.mmu (pageOf s.tma) with
  | some e => (entryWord e ||| (any &&& ~~~mmuDataMask), s')
  | none => (any &&& ~~~1#32, s')

/-- The replacement of R81: any one entry is lost or none, and one must be where all mapping registers are in use. -/
def evict (c : Config) (pick : Nat) (rest : List MapEntry) : List MapEntry :=
  if rest.length < nmap c then rest.eraseIdx (pick % (rest.length + 1))
  else rest.eraseIdx (pick % rest.length)

/-- The rights of a mapping register anded with those of a word written with G = 1 (R82). -/
def andRights (d : Word) (e : MapEntry) : MapEntry :=
  { e with
    c := e.c && d.getLsbD 4
    r := e.r && d.getLsbD 3
    w := e.w && d.getLsbD 2
    x := e.x && d.getLsbD 1
    v := e.v && d.getLsbD 0 }

/-- `WriteMMUDATA(d)` (R81 for G = 0, R82 for G = 1). -/
def writeMmuData (c : Config) (d : Word) (s : State) : State :=
  if d.getLsbD 5 then { s with mmu := s.mmu.map (andRights d) }
  else
    let (any, s') := drawWord c s
    let rest := s.mmu.filter fun e => e.vpn != pageOf s.tma
    { s' with mmu := wordEntry (pageOf s.tma) d :: evict c any.toNat rest }

/-! ### The program counter -/

/-- `pc <- t`, which for an odd target raises the bus trap with cause 01 (10_state.md R27). -/
def setPc (c : Config) (t : Word) (w : Work) : Result Unit :=
  if t.getLsbD 0 then .trap (.bus t (busCause c .oddPc)) w
  else .ok () (updated w fun s => { s with pc := t })

/-- The pc advanced past a halfword, modulo 2^32 (40_instruction_cycle.md R122, 10_state.md R28). -/
def advancePc (s : State) : State := { s with pc := s.pc + 2#32 }

/-- `NextHalfword()` (40 R124), which is also how the first halfword is fetched (40 R121, R122). -/
def nextHalfword (c : Config) (w : Work) : Result Halfword :=
  andThen (memRead c .fetch w.st.pc .half w) fun h w => .ok (h.extractLsb' 0 16) (updated w advancePc)

/-- Further halfwords whose contents are not used (log 4). -/
def skipHalfwords (c : Config) : Nat → Work → Result Unit
  | 0, w => .ok () w
  | n + 1, w => andThen (nextHalfword c w) fun _ w => skipHalfwords c n w

/-! ### Traps -/

/-- `TRAP_VECTOR(kind)`, an even physical address (60 R183). -/
def trapVector (c : Config) (k : TrapKind) : Word := c.trapVectorHigh k ++ 0#1

/-- The trap memory address after a trap: the high 30 bits of the offending address and the reason, for a bus or an
MMU trap; any other event leaves it (60 R181). -/
def trapTma (old : Word) : Trap → Word
  | .bus a cause => a.extractLsb' 2 30 ++ cause
  | .mmu a cause => a.extractLsb' 2 30 ++ cause
  | _ => old

/-- `TrapEntry(kind, start, info)` (60 R179 to R183), the entry of every trap and interrupt. -/
def takeTrap (c : Config) (t : Trap) (start : Word) (s : State) : State :=
  { s with
    tpc := start
    tma := trapTma s.tma t
    psw := withLevel (withPrior s.psw (levelOf s.psw)) (trapLevel c (trapKind t) (levelOf s.psw))
    pc := trapVector c (trapKind t) }

/-- A trap abandons the instruction (60 R184): of what it did, the state `s` it began in keeps the counts of its memory
operations, and the free values drawn stay drawn (log 7, log 12). -/
def abandon (c : Config) (t : Trap) (start : Word) (s : State) (w : Work) : State :=
  takeTrap c t start { s with cyc := s.cyc + BitVec.ofNat 32 w.ops, draws := w.st.draws }

/-- The address of the instruction in execution, whose first halfword has been fetched and passed (40 R122; log 11). -/
def instrStart (s : State) : Word := s.pc - 2#32

/-- The state an instruction leaves that was begun in `s`. -/
def finish (c : Config) (s : State) : Result Unit → State
  | .ok _ w => w.st
  | .trap t w => abandon c t (instrStart s) s w

/-! ### The special registers -/

/-- Whether the code now running is privileged (42 R158). -/
def inPrivileged (c : Config) (s : State) : Bool := privileged c (levelOf s.psw)

/-- An operation for privileged code only; elsewhere the privilege trap (42 R158, 60 R175). -/
def guardPrivilege {α : Type} (c : Config) (w : Work) (r : Result α) : Result α :=
  if inPrivileged c w.st then r else .trap .privilege w

/-- The return from a trap (60 R185): the pc from `tpc`, the level from `psw.prior`. It uses TPC and changes `level` and
`prior`, so it is for privileged code only and elsewhere the privilege trap (42 R151, R158); that R158 holds of a return
as of any other use of TPC is DEDUCED, since R185 and R188 name no privilege for it (log 18). -/
def trapReturn (c : Config) (newPrior : Nibble → Nibble) (w : Work) : Result Unit :=
  guardPrivilege c w <|
    andThen (setPc c w.st.tpc w) fun _ w =>
      .ok () (updated w fun s =>
        { s with psw := withLevel (withPrior s.psw (newPrior (priorOf s.psw))) (priorOf s.psw) })

/-- The PSW as it is read: unused bits read as any (42 R151, 10_state.md R43). -/
def readPsw (c : Config) (s : State) : Word × State :=
  let (any, s') := drawWord c s
  ((s.psw &&& pswMask c) ||| (any &&& ~~~pswMask c), s')

/-- `ReadSpecial(reg)` (42 R150 to R156). -/
def readSpecial (c : Config) (reg : SpecialReg) (w : Work) : Result Word :=
  match reg with
  | .psw => .ok (readPsw c w.st).1 { w with st := (readPsw c w.st).2 }
  | .tpc => guardPrivilege c w (.ok w.st.tpc w)
  | .tma => guardPrivilege c w (.ok w.st.tma w)
  | .tsv => guardPrivilege c w (.ok w.st.tsv w)
  | .cyc => guardPrivilege c w (.ok w.st.cyc w)
  | .mmudata => guardPrivilege c w (.ok (readMmuData c w.st).1 { w with st := (readMmuData c w.st).2 })

/-- `WriteSpecial(PSW, v)` (42 R151): unused bits are ignored; unprivileged code may write the condition codes and bcd
carry only, and an attempt of it to change level or prior is a privilege violation. -/
def writePsw (c : Config) (v : Word) (w : Work) : Result Unit :=
  if inPrivileged c w.st || v.extractLsb' 24 8 == w.st.psw.extractLsb' 24 8 then
    .ok () (updated w fun s => { s with psw := v &&& pswMask c })
  else .trap .privilege w

/-- `WriteSpecial(reg, v)` (42 R150 to R157). -/
def writeSpecial (c : Config) (reg : SpecialReg) (v : Word) (w : Work) : Result Unit :=
  match reg with
  | .psw => writePsw c v w
  | .tpc => guardPrivilege c w (.ok () (updated w fun s => { s with tpc := v }))
  | .tma => guardPrivilege c w (.ok () (updated w fun s => { s with tma := v }))
  | .tsv => guardPrivilege c w (.ok () (updated w fun s => { s with tsv := v }))
  | .cyc => guardPrivilege c w (.ok () (updated w fun s => { s with cyc := v }))
  | .mmudata => guardPrivilege c w (.ok () (updated w (writeMmuData c v)))

/-! ### The coprocessors -/

/-- Every number of a coprocessor. -/
def coNumbers : List (BitVec 3) := [1#3, 2#3, 3#3, 4#3, 5#3, 6#3, 7#3]

/-- `CoPresent(c)`, there being no coprocessor 0 (10_state.md R33, 41 R145). -/
def present (c : Config) (n : BitVec 3) : Bool := n != 0#3 && c.coPresent n

/-- `CoInstrImplemented`, which may be false only if no coprocessors are present (41 R144). -/
def coImplemented (c : Config) : Bool := c.coInstrImplemented || coNumbers.any (present c)

/-- `costat.select` (10_state.md R31). -/
def selectOf (costat : Word) : BitVec 3 := costat.extractLsb' 8 3

/-- `costat.coop` (10_state.md R31). -/
def coopOf (costat : Word) : Nibble := costat.extractLsb' 12 4

/-- The enable bit of coprocessor n (10_state.md R32). -/
def enabledIn (costat : Word) (n : BitVec 3) : Bool := costat.getLsbD n.toNat

/-- The bits of COSTAT that some field uses (10_state.md R31). -/
def costatMask : Word := 0x0000F7FE#32

/-- The states of a coprocessor (10_state.md R34). -/
inductive CoState where
  | absent
  | disabled
  | sleeping
  | active
deriving DecidableEq, Repr

/-- The state of coprocessor n (10_state.md R34). -/
def coStateOf (c : Config) (costat : Word) (n : BitVec 3) : CoState :=
  if present c n then
    if enabledIn costat n then
      if selectOf costat = n then .active else .sleeping
    else .disabled
  else .absent

/-- The selected coprocessor can be manipulated: COGET and COSET do not trap (41 R140, R143, R145). -/
def coAccessible (c : Config) (costat : Word) : Bool :=
  present c (selectOf costat) && enabledIn costat (selectOf costat)

/-- Only the registers in `CoRegs(n)` exist (10_state.md R33); the places of the others hold 0 (log 14). -/
def restrictUnit (c : Config) (n : BitVec 3) (u : CoUnit) : CoUnit :=
  { u with regs := Vector.ofFn fun i => if c.coRegs n (BitVec.ofNat 4 (i.val + 1)) then u.regs[i] else 0#32 }

/-- The state of coprocessor n. -/
def unitAt (s : State) (n : BitVec 3) : CoUnit := (s.co[n.toNat - 1]?).getD ⟨Vector.replicate 15 0#32, 0⟩

/-- `co[n][k]`, coprocessor register k of 1 to 15 (10_state.md R33). -/
def coReg (s : State) (n : BitVec 3) (k : Nibble) : Word := ((unitAt s n).regs[k.toNat - 1]?).getD 0#32

/-- The state of coprocessor n replaced. -/
def setUnit (c : Config) (n : BitVec 3) (u : CoUnit) (s : State) : State :=
  { s with co := s.co.setIfInBounds (n.toNat - 1) (restrictUnit c n u) }

/-- COSTAT as it is read: unused bits read as any (10_state.md R35). -/
def readCostat (c : Config) (s : State) : Word × State :=
  let (any, s') := drawWord c s
  ((s.costat &&& costatMask) ||| (any &&& ~~~costatMask), s')

/-- The number of the coprocessor at an index of `State.co`. -/
def coNumberAt (i : Fin 7) : BitVec 3 := BitVec.ofNat 3 (i.val + 1)

/-- A write of COSTAT with its effects (41 R141, R146): unused bits are ignored, and the contents of a present
coprocessor whose enable bit changes are unspecified from then on. -/
def writeCostat (c : Config) (v : Word) (s : State) : State :=
  { s with
    costat := v &&& costatMask
    co := Vector.ofFn fun i =>
      let n := coNumberAt i
      if present c n && enabledIn s.costat n != enabledIn v n then
        restrictUnit c n (c.coAny (s.draws + i.val))
      else s.co[i]
    draws := s.draws + 7 }

/-- COGET's value for coprocessor register k (41 R140, R142, R147). -/
def coGetValue (c : Config) (k : Nibble) (w : Work) : Result Word :=
  if k = 0#4 then .ok (readCostat c w.st).1 { w with st := (readCostat c w.st).2 }
  else
    let sel := selectOf w.st.costat
    if coAccessible c w.st.costat then
      let r := c.coRead sel k (coopOf w.st.costat) (unitAt w.st sel)
      .ok r.1 (updated w (setUnit c sel r.2))
    else .trap .coprocessor w

/-- COSET's effect on coprocessor register k (41 R141, R142, R147). -/
def coSetValue (c : Config) (k : Nibble) (v : Word) (w : Work) : Result Unit :=
  if k = 0#4 then .ok () (updated w (writeCostat c v))
  else
    let sel := selectOf w.st.costat
    if coAccessible c w.st.costat then
      .ok () (updated w (setUnit c sel (c.coWrite sel k (coopOf w.st.costat) v (unitAt w.st sel))))
    else .trap .coprocessor w

/-- The condition codes after an instruction of which the source does not say whether it writes them: any values
(41 R140, R141: "not in the source"; log 9). -/
def anyCC (c : Config) (s : State) : State :=
  let (any, s') := drawWord c s
  { s' with psw := withCC s.psw (any.extractLsb' 0 4) }

/-- A write to a destination field whose reading of number 0 is open (40 R125). -/
def writeDst (c : Config) (z : ZeroDst) (n : Nibble) (v : Word) (w : Work) : Result Unit :=
  if n = 0#4 then
    match z with
    | .discard => .ok () w
    | .jump => setPc c v w
  else .ok () (updated w fun s => writeReg s n v)

end Sys2Proof.Machine
end

