-- ==== Sys2Proof/Machine/Coprocessor.lean ====
section
/-! DEFINITION. The coprocessor interface instructions COGET and COSET (spec/41_coprocessor.md). -/

namespace Sys2Proof.Machine

open Sys2Proof

/-- An instruction that is invalid where the coprocessor instructions are not implemented (41 R144). -/
def ifImplemented (c : Config) (w : Work) (r : Result Unit) : Result Unit :=
  if coImplemented c then r else .trap .invalidOpcode w

/-- The last act of COGET and COSET: nothing says what the condition codes are after them (log 9). -/
def endCoInstr (c : Config) (r : Result Unit) : Result Unit :=
  andThen r fun _ w => .ok () (updated w (anyCC c))

/-- How many further halfwords the COGET or COSET in execution has: its `Length` less 1, a function of its first
halfword (30_encoding.md R111), which is in `ir` (40_instruction_cycle.md R121; log 4). -/
def coFurtherOf (c : Config) (s : State) : Nat := c.coFurther (splitHalfword s.ir)

/-- COGET(dst, k) (41 R140) under a configuration. -/
def cogetWork (c : Config) (dst k : Nibble) (w : Work) : Result Unit :=
  ifImplemented c w <|
    andThen (skipHalfwords c (coFurtherOf c w.st) w) fun _ w =>
      andThen (coGetValue c k w) fun v w =>
        endCoInstr c (writeDst c c.cogetZero dst v w)

/-- COSET(src, k) (41 R141) under a configuration. -/
def cosetWork (c : Config) (src k : Nibble) (w : Work) : Result Unit :=
  ifImplemented c w <|
    andThen (skipHalfwords c (coFurtherOf c w.st) w) fun _ w =>
      endCoInstr c (coSetValue c k (readReg w.st src c.cosetZero) w)

/-- COGET as a whole, a trap of it taken. -/
def execCogetIn (c : Config) (dst k : Nibble) (s : State) : Host.Outcome State Fault Refusal :=
  .next (finish c s (cogetWork c dst k ⟨s, 0⟩))

/-- COSET as a whole, a trap of it taken. -/
def execCosetIn (c : Config) (src k : Nibble) (s : State) : Host.Outcome State Fault Refusal :=
  .next (finish c s (cosetWork c src k ⟨s, 0⟩))

/-- The meaning of COGET (41 R140). -/
def execCoget (dst k : Nibble) (s : State) : Host.Outcome State Fault Refusal :=
  execCogetIn Config.platform dst k s

/-- The meaning of COSET (41 R141). -/
def execCoset (src k : Nibble) (s : State) : Host.Outcome State Fault Refusal :=
  execCosetIn Config.platform src k s

end Sys2Proof.Machine
end

