-- ==== Sys2Proof/Machine/Generic.lean ====
section
/-! DEFINITION. The instructions chapter 1 does not define (spec/40_instruction_cycle.md R123): the run of the
operation that the open parameter `Exec` gives an instruction, under the obligations (a) to (h). -/

namespace Sys2Proof.Machine

open Sys2Proof

/-- The run of an instruction's operation (R123). `add` says whether it is an "add instruction", the only ones that
write `bcdcarry` as a side effect (R127). -/
def run (c : Config) (add : Bool) : {m : Nat} → Program m → Work → Result Unit
  | _, .done, w => .ok () w
  | _, .readReg n z k, w => run c add (k (readReg w.st n z)) w
  | _, .writeReg n v p, w => run c add p (updated w fun s => writeReg s n v)
  | _, .setPc t p, w => andThen (setPc c t w) fun _ w => run c add p w
  | _, .load va n k, w => andThen (memRead c .load va n w) fun v w => run c add (k v) w
  | _, .store va n v p, w => andThen (memWrite c va n v w) fun _ w => run c add p w
  | _, .nextHalfword k, w => andThen (nextHalfword c w) fun h w => run c add (k h) w
  | _, .readCC k, w => run c add (k (ccOf w.st.psw)) w
  | _, .writeCC cc p, w => run c add p (updated w fun s => { s with psw := withCC s.psw cc })
  | _, .readBcd k, w => run c add (k (bcdOf c w.st.psw)) w
  | _, .writeBcd v p, w =>
    run c add p (if add then updated w fun s => { s with psw := withBcd c s.psw v } else w)
  | _, .readSpecial reg k, w => andThen (readSpecial c reg w) fun v w => run c add (k v) w
  | _, .writeSpecial reg v p, w => andThen (writeSpecial c reg v w) fun _ w => run c add p w
  | _, .requirePrivilege p, w => guardPrivilege c w (run c add p w)
  | _, .draw k, w => run c add (k (drawWord c w.st).1) { w with st := (drawWord c w.st).2 }
  | _, .raiseInvalid, w => .trap .invalidOpcode w
  | _, .trapReturn f, w => trapReturn c f w

/-- An instruction other than COGET and COSET as a whole, a trap of it taken. -/
def execAnyIn (c : Config) (f : IrFields) (s : State) : Host.Outcome State Fault Refusal :=
  .next (finish c s (run c (c.isAdd f) (c.operation f).program ⟨s, 0⟩))

/-- The meaning of row `any_instruction_halfword` (R123). -/
def execAnyInstructionHalfword (f : IrFields) (s : State) : Host.Outcome State Fault Refusal :=
  execAnyIn Config.platform f s

end Sys2Proof.Machine
end

