-- ==== Sys2Proof/Machine/Cycle.lean ====
section
/-! DEFINITION. The instruction execution cycle (spec/40_instruction_cycle.md R120 to R123, R133). -/

namespace Sys2Proof.Machine

open Sys2Proof

/-- `TakeInterrupt()` (R133): some request outstanding is enabled at the level of the PSW. -/
def takesInterrupt (c : Config) (s : State) : Bool := s.irq.any (c.irqEnabled (levelOf s.psw))

/-- The requests outstanding before the next pass, an input of the machine that may change before any step
(60_exceptions.md R177; log 8). -/
def nextRequests (c : Config) (s : State) : State :=
  { s with irq := c.irqInput s.draws, draws := s.draws + 1 }

/-- Fetch (R121) and advance (R122): the first halfword, and the state in which it is in `ir`. -/
def fetch (c : Config) (s : State) : Result Halfword :=
  andThen (nextHalfword c ⟨s, 0⟩) fun h w => .ok h (updated w fun s => { s with ir := h })

/-- A next state changed; a stop is a stop. -/
def mapNext (f : State → State) :
    Host.Outcome State Fault Refusal → Host.Outcome State Fault Refusal
  | .next s => .next (f s)
  | .fault r => .fault r
  | .refused r => .refused r

/-- One pass of the cycle, `Step()` of R123, with the meaning of instructions given. -/
def pass (c : Config) (meaning : Instr → State → Host.Outcome State Fault Refusal) (s : State) :
    Host.Outcome State Fault Refusal :=
  if takesInterrupt c s then .next (takeTrap c .interrupt s.pc s)
  else
    match fetch c s with
    | .trap t w => .next (abandon c t s.pc s w)
    | .ok h w =>
      match decode c (halfwordBytes h) with
      | .error _ => .next (abandon c .invalidOpcode (instrStart w.st) w.st ⟨w.st, 0⟩)
      | .ok (i, _) => meaning i w.st

/-- A pass, and the requests that are outstanding when it is over. -/
def cycle (c : Config) (meaning : Instr → State → Host.Outcome State Fault Refusal) (s : State) :
    Host.Outcome State Fault Refusal :=
  mapNext (nextRequests c) (pass c meaning s)

/-- The machine under any configuration: the meanings of all instructions. `exec` of Dispatch.lean is this under
`Config.platform`. -/
def execIn (c : Config) : Instr → State → Host.Outcome State Fault Refusal
  | .anyInstructionHalfword f, s => execAnyIn c f s
  | .coget dst k, s => execCogetIn c dst k s
  | .coset src k, s => execCosetIn c src k s

/-- The machine under any configuration: one step. -/
def stepIn (c : Config) (s : State) : Host.Outcome State Fault Refusal := cycle c (execIn c) s

/-- A state in which the next step fetches: no request is outstanding, and the memory-management unit does not refuse
the page of the pc, or else is turned off (log 23). -/
def readyToFetch (c : Config) (s : State) : State :=
  match translate c .fetch s.pc s with
  | .ok _ => { s with irq := [] }
  | .error _ => { s with irq := [], psw := withLevel s.psw (levelOf s.psw &&& 7#4) }

/-- The physical address of a fetch in such a state. -/
def fetchAddress (c : Config) (s : State) (va : Word) : Word :=
  match translate c .fetch va s with
  | .ok pa => pa
  | .error _ => va

/-- Halfwords stored where the fetches from a virtual address on find them. -/
def placeHalfwords (c : Config) : Nat → Nat → Word → State → State
  | 0, _, _, s => s
  | n + 1, w, va, s =>
    placeHalfwords c n (w / 65536) (va + 2#32)
      { s with mem := storeBytes s.mem (fetchAddress c s va) .half (BitVec.ofNat 32 (w % 65536)) }

/-- The instruction of `nbits` bits `w` stored where the next step fetches. -/
def placeInstruction (c : Config) (nbits w : Nat) (s : State) : State :=
  let s := readyToFetch c s
  placeHalfwords c ((nbits + 15) / 16) w s.pc s

end Sys2Proof.Machine
end

