-- ==== Sys2Proof/Machine/Dispatch.lean ====
section
/-! DEFINITION. The meaning of every instruction, one arm per constructor of Instr. -/

namespace Sys2Proof.Machine

open Sys2Proof

def exec (i : Instr) (s : State) : Host.Outcome State Fault Refusal :=
  match i with
  | .anyInstructionHalfword f => Sys2Proof.Machine.execAnyInstructionHalfword f s
  | .coget dst k => Sys2Proof.Machine.execCoget dst k s
  | .coset src k => Sys2Proof.Machine.execCoset src k s

end Sys2Proof.Machine
end

