-- ==== Sys2Proof/Machine/Step.lean ====
section
/-! DEFINITION. The step of the machine, which is one pass of the instruction execution cycle, and the placing of an
instruction where it fetches. -/

namespace Sys2Proof.Machine

open Sys2Proof

/-- One step (spec/40_instruction_cycle.md R123). -/
def step (s : State) : Host.Outcome State Fault Refusal := cycle Config.platform exec s

/-- The state with an instruction placed where the next step fetches (log 23). -/
def State.withFetchWord (s : State) (nbits w : Nat) : State := placeInstruction Config.platform nbits w s

end Sys2Proof.Machine
end

