-- ==== Sys2Proof/Machine/Reset.lean ====
section
/-! DEFINITION. The open `ResetState` of the spec (10_state.md R57, 70_reset_and_hazards.md R200, R201) as a state: the
parameter `Config.reset`, with the constraints of the spec put on it. -/

namespace Sys2Proof.Machine

open Sys2Proof

/-- At most `NMAP` mapping registers, no two of one virtual page (R201); a list that is so already stays as it is. -/
def resetMmu (c : Config) (mmu : List MapEntry) : List MapEntry :=
  (mmu.pwFilter fun a b => a.vpn ≠ b.vpn).take (nmap c)

/-- The memory of a launch: the bytes of its image that lie in words that exist (10_state.md R55, R57). -/
def resetMemory (c : Config) (image : List (Nat × Byte)) : Memory :=
  image.foldr
    (fun x m => if x.1 < 2 ^ 32 && c.real (BitVec.ofNat 30 (x.1 / 4)) then writeByte m x.1 x.2 else m) []

/-- The machine right after reset with given reset values. Nothing is held in unused bits, in coprocessor registers that
do not exist and in absent coprocessors (log 13, log 14). -/
def resetWith (c : Config) (r : ResetValues) : State where
  regs := r.regs
  pc := r.pcHigh ++ 0#1
  psw := (r.level ++ r.pswRest) &&& pswMask c
  costat := r.costat &&& costatMask
  tpc := r.tpc
  tma := r.tma
  tsv := r.tsv
  cyc := r.cyc
  mmu := resetMmu c r.mmu
  ir := r.ir
  irq := r.irq
  co := Vector.ofFn fun i =>
    if present c (coNumberAt i) then restrictUnit c (coNumberAt i) r.co[i]
    else ⟨Vector.replicate 15 0#32, 0⟩
  mem := resetMemory c r.image
  draws := 0

/-- The machine right after reset under a configuration, with the open reset values it names. -/
def resetIn (c : Config) : State := resetWith c c.reset

/-- The reset values that are all 0: those of `State.reset` (log 5, log 6). -/
def zeroReset : ResetValues where
  pcHigh := 0#31
  level := 0#4
  pswRest := 0#28
  regs := Vector.replicate 15 0#32
  costat := 0#32
  tpc := 0#32
  tma := 0#32
  tsv := 0#32
  cyc := 0#32
  mmu := []
  ir := 0#16
  irq := []
  co := Vector.replicate 7 ⟨Vector.replicate 15 0#32, 0⟩
  image := []

end Sys2Proof.Machine
end

