-- ==== Sys2Proof/Safety.lean ====
section
/-! DEFINITION. What claims about the machine are stated in: the invariant of its states, the states a reset may
leave, and what application code may not touch. -/

namespace Sys2Proof.Machine

open Sys2Proof

/-- The mapping registers are at most `NMAP`, no two of one virtual page (spec/10_state.md R51). -/
structure MmuOk (c : Config) (mmu : List MapEntry) : Prop where
  bounded : mmu.length ≤ nmap c
  distinct : (mmu.map fun e => e.vpn).Nodup

/-- What holds of every state of the machine. -/
structure Inv (c : Config) (s : State) : Prop where
  /-- bit 0 of the pc is 0 (10_state.md R27) -/
  pcEven : s.pc.getLsbD 0 = false
  /-- the mapping registers are as R51 says -/
  mmuOk : MmuOk c s.mmu
  /-- memory has its canonical form -/
  memWf : Memory.wf s.mem
  /-- no byte is listed of a word that does not exist (20_memory.md R72) -/
  memReal : ∀ x ∈ s.mem, c.real (BitVec.ofNat 30 (x.1 / 4)) = true
  /-- nothing is held in the unused bits of the PSW (10_state.md R43; log 13) -/
  pswUnused : s.psw &&& ~~~pswMask c = 0#32
  /-- nothing is held in the unused bits of COSTAT (10_state.md R35; log 13) -/
  costatUnused : s.costat &&& ~~~costatMask = 0#32
  /-- a coprocessor holds nothing in registers it does not have (10_state.md R33; log 14) -/
  coRestricted : ∀ i : Fin 7, restrictUnit c (coNumberAt i) s.co[i] = s.co[i]
  /-- an absent coprocessor has no state (10_state.md R33; log 14) -/
  coAbsent : ∀ i : Fin 7, present c (coNumberAt i) = false → s.co[i] = ⟨Vector.replicate 15 0#32, 0⟩

/-- The constraints the spec puts on a reset state (70_reset_and_hazards.md R201): everything else is open there. -/
structure IsResetState (c : Config) (s : State) : Prop where
  pcEven : s.pc.getLsbD 0 = false
  mmuOk : MmuOk c s.mmu

/-- The state after an instruction that ended in a trap: the entry of the trap from the state it began in. -/
def TrappedFrom (c : Config) (s t : State) : Prop := ∃ tr w, t = abandon c tr (instrStart s) s w

/-- The work of an instruction, before a trap of it is taken. -/
def workIn (c : Config) : Instr → Work → Result Unit
  | .anyInstructionHalfword f, w => run c (c.isAdd f) (c.operation f).program w
  | .coget dst k, w => cogetWork c dst k w
  | .coset src k, w => cosetWork c src k w

/-- An operation that writes no special register but those allowed. -/
def writesOnly (ok : SpecialReg → Prop) : {m : Nat} → Program m → Prop
  | _, .done => True
  | _, .readReg _ _ k => ∀ v, writesOnly ok (k v)
  | _, .writeReg _ _ p => writesOnly ok p
  | _, .setPc _ p => writesOnly ok p
  | _, .load _ _ k => ∀ v, writesOnly ok (k v)
  | _, .store _ _ _ p => writesOnly ok p
  | _, .nextHalfword k => ∀ h, writesOnly ok (k h)
  | _, .readCC k => ∀ v, writesOnly ok (k v)
  | _, .writeCC _ p => writesOnly ok p
  | _, .readBcd k => ∀ v, writesOnly ok (k v)
  | _, .writeBcd _ p => writesOnly ok p
  | _, .readSpecial _ k => ∀ v, writesOnly ok (k v)
  | _, .writeSpecial r _ p => ok r ∧ writesOnly ok p
  | _, .requirePrivilege p => writesOnly ok p
  | _, .draw k => ∀ v, writesOnly ok (k v)
  | _, .raiseInvalid => True
  | _, .trapReturn _ => True

/-- An operation that sets the pc nowhere: its pc moves by the halfwords it takes and no more. -/
def staysInLine : {m : Nat} → Program m → Prop
  | _, .done => True
  | _, .readReg _ _ k => ∀ v, staysInLine (k v)
  | _, .writeReg _ _ p => staysInLine p
  | _, .setPc _ _ => False
  | _, .load _ _ k => ∀ v, staysInLine (k v)
  | _, .store _ _ _ p => staysInLine p
  | _, .nextHalfword k => ∀ h, staysInLine (k h)
  | _, .readCC k => ∀ v, staysInLine (k v)
  | _, .writeCC _ p => staysInLine p
  | _, .readBcd k => ∀ v, staysInLine (k v)
  | _, .writeBcd _ p => staysInLine p
  | _, .readSpecial _ k => ∀ v, staysInLine (k v)
  | _, .writeSpecial _ _ p => staysInLine p
  | _, .requirePrivilege p => staysInLine p
  | _, .draw k => ∀ v, staysInLine (k v)
  | _, .raiseInvalid => True
  | _, .trapReturn _ => False

/-- What code that is not privileged leaves as it is (10_state.md R20: TPC, TMA, TSV and, through MMUDATA, the mapping
registers are "visible only to privileged code"). -/
structure KeepsPrivileged (s t : State) : Prop where
  tpc : t.tpc = s.tpc
  tma : t.tma = s.tma
  tsv : t.tsv = s.tsv
  mmu : t.mmu = s.mmu

/-- A physical byte lies in a page that a valid mapping register gives for writing. -/
def writableByte (s : State) (a : Nat) : Prop :=
  ∃ e ∈ s.mmu, e.v = true ∧ e.w = true ∧ e.ppn.toNat = a / 4096

/-- What a narrow access moves of a word: its low bits, padded with zeros. -/
def lowPart (n : Width) (v : Word) : Word :=
  match n with
  | .word => v
  | .half => (v.extractLsb' 0 16).zeroExtend 32
  | .byte => (v.extractLsb' 0 8).zeroExtend 32

/-- The further halfwords of an instruction, `n` of them, can be fetched (40_instruction_cycle.md R124). -/
def FetchesFurther (c : Config) (n : Nat) (s : State) : Prop :=
  ∃ w, skipHalfwords c n ⟨s, 0⟩ = .ok () w

/-- The state after `n` further halfwords have been passed: each moves the pc and counts in `cyc`. -/
def afterHalfwords (n : Nat) (s : State) : State :=
  { s with pc := s.pc + BitVec.ofNat 32 (2 * n), cyc := s.cyc + BitVec.ofNat 32 n }

/-- A coprocessor that is plain storage (41_coprocessor.md R147, "the minimal model"). -/
structure PlainStorage (c : Config) (n : BitVec 3) : Prop where
  read : ∀ k coop u, c.coRead n k coop u = ((u.regs[k.toNat - 1]?).getD 0#32, u)
  write : ∀ k coop v u, c.coWrite n k coop v u = { u with regs := u.regs.setIfInBounds (k.toNat - 1) v }

/-- A claim about the meanings of instructions under every configuration, and so of the machine itself, whose
configuration is `Config.platform` and whose meanings are `exec`. -/
def everyMachine (claim : Config → (Instr → State → Host.Outcome State Fault Refusal) → Prop) : Prop :=
  (∀ c, claim c (execIn c)) ∧ claim Config.platform exec

/-- A claim about steps under every configuration, and so of the machine itself. -/
def everyStep (claim : Config → (State → Host.Outcome State Fault Refusal) → Prop) : Prop :=
  (∀ c, claim c (stepIn c)) ∧ claim Config.platform step

end Sys2Proof.Machine
end

