-- ==== Sys2Proof/Certificates/Slice0/Obligations.lean ====
section
/-! DEFINITION. The statements about the model, one `def Obligations.<Name> : Prop` each. A statement of the form
`everyMachine` or `everyStep` is about every configuration of the open parameters (spec/00_scope.md R4), and about the
machine itself, `exec` and `step`. Where a clause rests on a choice of the model, the docstring names its log entry
(notes/assumptions): "log n". -/

open Sys2Proof Sys2Proof.Machine

/-! ### Encoding -/

/-- Decoding an encoded well-formed instruction gives it back, whatever follows it (30_encoding.md; the opcode map is
any map at all, and what a well-formed instruction is depends on it: log 3, log 24). -/
def Obligations.DecodeOfEncodeIsIdentity : Prop :=
  ∀ (c : Config) (i : Instr), wellFormed c i = true →
    ∃ h, encode c i = some h ∧ ∀ rest, decode c (halfwordBytes h ++ rest) = .ok (i, rest)

/-- Whatever bytes decode to an instruction, it is a well-formed one and takes two of them (R100;
log 24). -/
def Obligations.DecodedInstructionIsEncodable : Prop :=
  ∀ (c : Config) (bytes : List Byte) (i : Instr) (rest : List Byte), decode c bytes = .ok (i, rest) →
    wellFormed c i = true ∧ (∃ b0 b1, bytes = b0 :: b1 :: rest) ∧ ∃ h, encode c i = some h

/-- The four fields are the whole halfword, and `const` is its second byte (R101 to R104). -/
def Obligations.FieldsAreTheHalfword : Prop :=
  (∀ h, joinFields (splitHalfword h) = h) ∧ (∀ f, splitHalfword (joinFields f) = f) ∧
    ∀ h, constField (splitHalfword h) = h.extractLsb' 8 8 ∧
      bytesHalfword (h.extractLsb' 0 8) (h.extractLsb' 8 8) = h

/-- The halfwords of the spec's examples (30_encoding.md R104, 95_test_vectors.md V4.1, V4.2) decode with the fields
given there, as whatever the opcode map makes of `op`, `op1` and `op2`. The spec gives the fields only: that the
operands of COGET and COSET are fields of the first halfword, as in clauses 2 and 3, is the model's choice of
log 3. -/
def Obligations.SpecHalfwordsDecode : Prop :=
  (∀ c : Config, c.opKind 7#4 5#4 6#4 = .other →
    decode c [0x78#8, 0x56#8] = .ok (.anyInstructionHalfword ⟨7#4, 8#4, 5#4, 6#4⟩, [])) ∧
  (∀ c : Config, c.opKind 0xA#4 0xC#4 0xD#4 = .coget → c.cogetDst = .dst → c.cogetReg = .s2 →
    decode c [0xAB#8, 0xCD#8] = .ok (.coget 0xB#4 0xD#4, [])) ∧
  (∀ c : Config, c.opKind 0xA#4 0xC#4 0xD#4 = .coset → c.cosetSrc = .s1 → c.cosetReg = .dst →
    decode c [0xAB#8, 0xCD#8] = .ok (.coset 0xC#4 0xB#4, [])) ∧
  (∀ c : Config, c.opKind 7#4 5#4 6#4 = .invalid →
    decode c [0x78#8, 0x56#8] = .error (.invalidOpcode ⟨7#4, 8#4, 5#4, 6#4⟩))

/-! ### The cycle -/

/-- When no interrupt is taken, the halfword at the pc can be fetched and its bytes decode to `i`, a step is the meaning
of `i` in the state with the halfword in `ir`, the pc past it and the fetch counted, and then the requests of the next
pass (40_instruction_cycle.md R121 to R123; log 8). -/
def Obligations.StepRunsTheDecodedInstruction : Prop :=
  (∀ (c : Config) (s : State) (pa : Word) (i : Instr), takesInterrupt c s = false →
    translate c .fetch s.pc s = .ok pa → c.real (wordOf pa) = true →
    decode c [readByte s.mem (accessBase .half pa), readByte s.mem (accessBase .half pa + 1)] = .ok (i, []) →
    stepIn c s = mapNext (nextRequests c) (execIn c i { s with
      pc := s.pc + 2#32
      cyc := s.cyc + 1#32
      ir := readByte s.mem (accessBase .half pa + 1) ++ readByte s.mem (accessBase .half pa) })) ∧
  (∀ s, step s = stepIn Config.platform s) ∧ ∀ i s, exec i s = execIn Config.platform i s

/-- An invalid operation code traps, with `tpc` the address of the instruction (60_exceptions.md R174; the levels and
vectors are the spec's decisions, log 27). -/
def Obligations.InvalidOpcodeTraps : Prop :=
  everyStep fun c step => ∀ (s : State) (pa : Word) (e : DecodeError), takesInterrupt c s = false →
    translate c .fetch s.pc s = .ok pa → c.real (wordOf pa) = true →
    decode c [readByte s.mem (accessBase .half pa), readByte s.mem (accessBase .half pa + 1)] = .error e →
    ∃ t, step s = .next t ∧ t.tpc = s.pc ∧ t.tma = s.tma ∧ t.pc = trapVector c .invalidOpcode ∧
      priorOf t.psw = levelOf s.psw ∧ levelOf t.psw = trapLevel c .invalidOpcode (levelOf s.psw) ∧
      ccOf t.psw = ccOf s.psw ∧ t.regs = s.regs ∧ t.tsv = s.tsv ∧ t.costat = s.costat ∧ t.co = s.co ∧
      t.mmu = s.mmu ∧ t.mem = s.mem ∧ t.cyc = s.cyc + 1#32

/-- A fetch that the memory-management unit refuses, or that finds no real memory, traps: `tpc` is the pc, `tma` names
the address, and nothing is fetched (40_instruction_cycle.md R121, 20_memory.md R72). That `prior` is the old level is
the spec's decision (92 D19; log 27); that `irq` is a new input and `draws` counts it is the model's (log 7,
log 8). -/
def Obligations.FetchTraps : Prop :=
  everyStep fun c step => ∀ s : State, takesInterrupt c s = false →
    (∀ tr, translate c .fetch s.pc s = .error tr →
      ∃ t, step s = .next t ∧ t.tpc = s.pc ∧ (∃ cause : BitVec 2, t.tma = s.pc.extractLsb' 2 30 ++ cause) ∧
        t.pc = trapVector c .mmu ∧ priorOf t.psw = levelOf s.psw ∧ ccOf t.psw = ccOf s.psw ∧
        t = { s with
          tpc := t.tpc, tma := t.tma, pc := t.pc, psw := t.psw
          cyc := if c.cycCountsFaulting then s.cyc + 1#32 else s.cyc
          irq := c.irqInput s.draws, draws := s.draws + 1 }) ∧
    (∀ pa, translate c .fetch s.pc s = .ok pa → c.real (wordOf pa) = false →
      ∃ t, step s = .next t ∧ t.tpc = s.pc ∧
        t.tma = (if c.busTmaVirtual then s.pc else pa).extractLsb' 2 30 ++ c.busCauseNonexistent ∧
        t.pc = trapVector c .bus ∧ priorOf t.psw = levelOf s.psw ∧ ccOf t.psw = ccOf s.psw ∧
        t = { s with
          tpc := t.tpc, tma := t.tma, pc := t.pc, psw := t.psw
          cyc := if c.cycCountsFaulting then s.cyc + 1#32 else s.cyc
          irq := c.irqInput s.draws, draws := s.draws + 1 })

/-- An enabled request is taken before the fetch: `tpc` is the address of the instruction to be executed on return
(40_instruction_cycle.md R133, 60_exceptions.md R177). Nothing else but the entry and the requests of the next pass
(log 8) happens. -/
def Obligations.InterruptIsTakenBetweenInstructions : Prop :=
  everyStep fun c step => ∀ (s : State) (r : Nat), r ∈ s.irq → c.irqEnabled (levelOf s.psw) r = true →
    ∃ t, step s = .next t ∧ t.tpc = s.pc ∧ t.pc = trapVector c .interrupt ∧
      priorOf t.psw = levelOf s.psw ∧ levelOf t.psw = trapLevel c .interrupt (levelOf s.psw) ∧
      ccOf t.psw = ccOf s.psw ∧ bcdOf c t.psw = bcdOf c s.psw ∧
      t = { s with
        tpc := t.tpc, pc := t.pc, psw := t.psw
        irq := c.irqInput s.draws, draws := s.draws + 1 }

/-- The cycle has no exit: every step has a next state, and every instruction completes or traps
(40_instruction_cycle.md R120; log 26). -/
def Obligations.EveryStepHasANextState : Prop :=
  everyStep (fun _ step => ∀ s, ∃ t, step s = .next t) ∧
    everyMachine fun _ exec => ∀ i s, ∃ t, exec i s = .next t

/-! ### Memory -/

/-- The word, the halfword and the byte an address refers to (20_memory.md R63 to R65). -/
def Obligations.ThreeViewsOfMemory : Prop :=
  ∀ (m : Memory) (a : Word),
    loadBytes m a .word = memoryWord m (wordOf a) ∧
    loadBytes m a .half =
      ((memoryWord m (wordOf a)).extractLsb' (16 * (a.extractLsb' 1 1).toNat) 16).zeroExtend 32 ∧
    loadBytes m a .byte =
      ((memoryWord m (wordOf a)).extractLsb' (8 * (byteOf a).toNat) 8).zeroExtend 32

/-- `MemRead` at a translated address of real memory answers what the address refers to, counts once and changes
nothing else (20_memory.md R73, R86). -/
def Obligations.MemReadAnswers : Prop :=
  ∀ (c : Config) (kind : AccessKind) (va pa : Word) (n : Width) (w : Work),
    translate c kind va w.st = .ok pa → c.real (wordOf pa) = true →
    memRead c kind va n w =
      .ok (loadBytes w.st.mem pa n) { st := { w.st with cyc := w.st.cyc + 1#32 }, ops := w.ops + 1 }

/-- `MemWrite` at a translated address of real memory replaces the bytes it reaches and no other byte, counts once and
changes nothing else (20_memory.md R73, R86). -/
def Obligations.MemWriteStores : Prop :=
  ∀ (c : Config) (va pa : Word) (n : Width) (v : Word) (w : Work),
    translate c .store va w.st = .ok pa → c.real (wordOf pa) = true →
    ∃ w', memWrite c va n v w = .ok () w' ∧
      (∀ j, j < accessSize n → readByte w'.st.mem (accessBase n pa + j) = v.extractLsb' (8 * j) 8) ∧
      (∀ b, b < accessBase n pa ∨ accessBase n pa + accessSize n ≤ b →
        readByte w'.st.mem b = readByte w.st.mem b) ∧
      w'.st = { w.st with mem := w'.st.mem, cyc := w.st.cyc + 1#32 } ∧ w'.ops = w.ops + 1

/-- A load after a store of the same width at the same address gives the value stored (20_memory.md R70), where the
page may be loaded from as well as stored to. -/
def Obligations.LoadAfterStoreGivesTheValue : Prop :=
  ∀ (c : Config) (va : Word) (n : Width) (v : Word) (w w' : Work) (u : Unit),
    memWrite c va n v w = .ok u w' → translate c .load va w.st = translate c .store va w.st →
    ∃ w'', memRead c .load va n w' = .ok (lowPart n v) w''

/-- An access to a word that does not exist reads and writes nothing and raises the bus trap (20_memory.md R72). -/
def Obligations.NonexistentMemoryTraps : Prop :=
  ∀ (c : Config) (kind : AccessKind) (va pa : Word) (n : Width) (v : Word) (w : Work),
    c.real (wordOf pa) = false →
    (translate c kind va w.st = .ok pa →
      ∃ w', memRead c kind va n w =
          .trap (.bus (if c.busTmaVirtual then va else pa) (busCause c .nonexistent)) w' ∧
        w'.st.mem = w.st.mem ∧ w'.ops = if c.cycCountsFaulting then w.ops + 1 else w.ops) ∧
    (translate c .store va w.st = .ok pa →
      ∃ w', memWrite c va n v w =
          .trap (.bus (if c.busTmaVirtual then va else pa) (busCause c .nonexistent)) w' ∧
        w'.st.mem = w.st.mem ∧ w'.ops = if c.cycCountsFaulting then w.ops + 1 else w.ops)

/-! ### The memory-management unit -/

/-- Translation: the identity while the unit is off; while it is on, an address is translated exactly where a mapping
register of its page is valid and allows the access (a fetch by X, a load by R, a store by W), and else the reason of
the trap is the first of no match, invalid, rights (20_memory.md R74, R76, R77). -/
def Obligations.TranslationFollowsTheMappingRegister : Prop :=
  ∀ (c : Config) (kind : AccessKind) (va : Word) (s : State),
    (unitOn s.psw = false → translate c kind va s = .ok va) ∧
    (unitOn s.psw = true →
      (∀ pa, translate c kind va s = .ok pa ↔
        ∃ e, lookupPage s.mmu (pageOf va) = some e ∧ e.v = true ∧
          (match kind with | .fetch => e.x | .load => e.r | .store => e.w) = true ∧
          pageOf pa = e.ppn ∧ pa.extractLsb' 0 12 = va.extractLsb' 0 12) ∧
      (lookupPage s.mmu (pageOf va) = none → translate c kind va s = .error (.mmu va (c.mmuCause .nomatch))) ∧
      (∀ e, lookupPage s.mmu (pageOf va) = some e → e.v = false →
        translate c kind va s = .error (.mmu va (c.mmuCause .invalid))) ∧
      (∀ e, lookupPage s.mmu (pageOf va) = some e → e.v = true →
        (e.x = false → translate c .fetch va s = .error (.mmu va (c.mmuCause .fetch))) ∧
        (e.r = false → translate c .load va s = .error (.mmu va (c.mmuCause .load))) ∧
        (e.w = false → translate c .store va s = .error (.mmu va (c.mmuCause .store)))))

/-- A write of MMUDATA with G = 0 associates the data with the page TMA selects, replaces an older entry of that page,
loses at most one other entry and adds none, and keeps the mapping registers a proper set (20_memory.md R81, R84,
10_state.md R51). -/
def Obligations.WriteOfMmuDataAssociates : Prop :=
  ∀ (c : Config) (d : Word) (s : State), d.getLsbD 5 = false → MmuOk c s.mmu →
    lookupPage (writeMmuData c d s).mmu (pageOf s.tma) = some (wordEntry (pageOf s.tma) d) ∧
    MmuOk c (writeMmuData c d s).mmu ∧
    (∀ e ∈ (writeMmuData c d s).mmu, e.vpn ≠ pageOf s.tma → e ∈ s.mmu) ∧
    (∀ e ∈ s.mmu, ∀ e' ∈ s.mmu, e.vpn ≠ pageOf s.tma → e'.vpn ≠ pageOf s.tma →
      e ∉ (writeMmuData c d s).mmu → e' ∉ (writeMmuData c d s).mmu → e = e') ∧
    writeMmuData c d s = { s with mmu := (writeMmuData c d s).mmu, draws := s.draws + 1 }

/-- A write of MMUDATA with G = 1 ands the rights of every entry and does nothing else (20_memory.md R82). -/
def Obligations.GlobalWriteOfMmuDataAndsRights : Prop :=
  ∀ (c : Config) (d : Word) (s : State), d.getLsbD 5 = true →
    writeMmuData c d s = { s with mmu := (writeMmuData c d s).mmu } ∧
    ∀ p, lookupPage (writeMmuData c d s).mmu p =
      (lookupPage s.mmu p).map fun e =>
        ⟨e.vpn, e.ppn, e.c && d.getLsbD 4, e.r && d.getLsbD 3, e.w && d.getLsbD 2, e.x && d.getLsbD 1,
          e.v && d.getLsbD 0⟩

/-- A write of MMUDATA with G = 1 and V = 0 clears V in every mapping register, and then, as long as the mapping
registers stay so, every address that is issued while the unit is on raises an MMU trap (20_memory.md R83). -/
def Obligations.InvalidateAllMappings : Prop :=
  ∀ (c : Config) (d : Word) (s : State), d.getLsbD 5 = true → d.getLsbD 0 = false →
    (∀ e ∈ (writeMmuData c d s).mmu, e.v = false) ∧
    ∀ (t : State) (kind : AccessKind) (va : Word), unitOn t.psw = true →
      t.mmu = (writeMmuData c d s).mmu → ∃ cause, translate c kind va t = .error (.mmu va cause)

/-- A read of MMUDATA gives, in every bit a mapping register has, the entry of the page TMA selects, whenever it was
written; for a page without an entry it gives V = 0; so after a write with G = 0 it gives the data back. It changes no
mapping register (20_memory.md R80, 92 D5). -/
def Obligations.ReadOfMmuDataShowsTheEntry : Prop :=
  ∀ (c : Config) (s : State),
    (∀ e, lookupPage s.mmu (pageOf s.tma) = some e → (readMmuData c s).1 &&& mmuDataMask = entryWord e) ∧
    (lookupPage s.mmu (pageOf s.tma) = none → (readMmuData c s).1.getLsbD 0 = false) ∧
    (∀ d : Word, d.getLsbD 5 = false →
      (readMmuData c (writeMmuData c d s)).1 &&& mmuDataMask = d &&& mmuDataMask) ∧
    (readMmuData c s).2 = { s with draws := s.draws + 1 }

/-- After an MMU trap TMA holds the high 30 bits of the virtual address and the reason, and so a read of MMUDATA shows
the entry of the page that was refused, or V = 0 if it has none (20_memory.md R79, R80, 10_state.md R45). -/
def Obligations.MmuTrapShowsTheRefusedPage : Prop :=
  ∀ (c : Config) (va start : Word) (cause : BitVec 2) (s : State),
    let t := takeTrap c (.mmu va cause) start s
    t.tma.extractLsb' 2 30 = va.extractLsb' 2 30 ∧ t.tma.extractLsb' 0 2 = cause ∧
      lookupPage t.mmu (pageOf t.tma) = lookupPage s.mmu (pageOf va) ∧
      (∀ n, readSpecial c .mmudata ⟨t, n⟩ = .ok (readMmuData c t).1 ⟨(readMmuData c t).2, n⟩) ∧
      (∀ e, lookupPage s.mmu (pageOf va) = some e → (readMmuData c t).1 &&& mmuDataMask = entryWord e) ∧
      (lookupPage s.mmu (pageOf va) = none → (readMmuData c t).1.getLsbD 0 = false)

/-! ### Traps -/

/-- Every trap and interrupt turns the memory-management unit off, so the routine runs with physical addresses
(20_memory.md R85). -/
def Obligations.TrapsTurnTheUnitOff : Prop :=
  ∀ (c : Config) (tr : Trap) (start : Word) (s : State),
    unitOn (takeTrap c tr start s).psw = false ∧
    ∀ kind va, translate c kind va (takeTrap c tr start s) = .ok va

/-- Trap entry enters a privileged level at an even address, keeps the old level in `prior`, and leaves the condition
codes and the bcd carry (60_exceptions.md R179, R182, R183). -/
def Obligations.TrapEntryChangesTheMode : Prop :=
  ∀ (c : Config) (tr : Trap) (start : Word) (s : State),
    let t := takeTrap c tr start s
    inPrivileged c t = true ∧ t.pc.getLsbD 0 = false ∧ priorOf t.psw = levelOf s.psw ∧
      ccOf t.psw = ccOf s.psw ∧ bcdOf c t.psw = bcdOf c s.psw ∧ t.tpc = start ∧
      t.regs = s.regs ∧ t.tsv = s.tsv ∧ t.costat = s.costat ∧ t.co = s.co ∧ t.mmu = s.mmu ∧
      t.mem = s.mem ∧ t.cyc = s.cyc

/-- Traps are precise: an instruction that traps leaves the address of its first halfword in `tpc` and changes nothing
but what trap entry writes, the count of its memory operations and the model's own count of draws (60_exceptions.md
R180, R181, R184; log 7, log 12). -/
def Obligations.TrapsArePrecise : Prop :=
  everyMachine fun c exec => ∀ (i : Instr) (s : State) (tr : Trap) (w : Work),
    workIn c i ⟨s, 0⟩ = .trap tr w →
    ∃ t, exec i s = .next t ∧ t.tpc = s.pc - 2#32 ∧ t.tma = trapTma s.tma tr ∧
      t.pc = trapVector c (trapKind tr) ∧ t.cyc = s.cyc + BitVec.ofNat 32 w.ops ∧
      priorOf t.psw = levelOf s.psw ∧ ccOf t.psw = ccOf s.psw ∧ bcdOf c t.psw = bcdOf c s.psw ∧
      t = { s with
        tpc := t.tpc, tma := t.tma, pc := t.pc, psw := t.psw, cyc := t.cyc, draws := t.draws }

/-- The pc is never set to an odd value: the attempt is the bus trap with cause 01 (10_state.md R27), of an instruction
whose target is fixed by its fields or computed from a register (the primitives are the model's, log 2). -/
def Obligations.OddTargetTraps : Prop :=
  (∀ (c : Config) (t : Word) (w : Work),
    (t.getLsbD 0 = true → setPc c t w = .trap (.bus t 1#2) w) ∧
    (t.getLsbD 0 = false → setPc c t w = .ok () { w with st := { w.st with pc := t } })) ∧
  everyMachine fun c exec => ∀ (f : IrFields) (s : State) (target : Word) (n : Nat),
    ((∃ p, c.operation f = ⟨n, .setPc target p⟩) ∨
      ∃ (a : Nibble) (z : ZeroReading) (g : Word → Word) (p : Word → Program n),
        c.operation f = ⟨n, .readReg a z fun x => .setPc (g x) (p x)⟩ ∧ target = g (readReg s a z)) →
    target.getLsbD 0 = true →
    ∃ t, exec (.anyInstructionHalfword f) s = .next t ∧ t.tpc = s.pc - 2#32 ∧
      t.tma = target.extractLsb' 2 30 ++ 1#2 ∧ t.pc = trapVector c .bus ∧
      t = { s with tpc := t.tpc, tma := t.tma, pc := t.pc, psw := t.psw }

/-- A return from trap right after the entry resumes at the address saved, with the old level back and so the
memory-management unit as it was (60_exceptions.md R185); through an odd `tpc` it is the odd-pc bus trap (42 R152).
R185 fixes the pc and the level only: the primitive, with what it does to `prior`, and that it leaves the condition
codes, the bcd carry and all else, is the model's choice of log 18. -/
def Obligations.ReturnUndoesTrapEntry : Prop :=
  ∀ (c : Config) (f : Nibble → Nibble) (tr : Trap) (start : Word) (s : State) (n : Nat),
    (start.getLsbD 0 = false →
      ∃ w', trapReturn c f ⟨takeTrap c tr start s, n⟩ = .ok () w' ∧ w'.st.pc = start ∧
        levelOf w'.st.psw = levelOf s.psw ∧ unitOn w'.st.psw = unitOn s.psw ∧
        ccOf w'.st.psw = ccOf s.psw ∧ bcdOf c w'.st.psw = bcdOf c s.psw ∧
        w'.st = { s with pc := start, psw := w'.st.psw, tpc := start, tma := trapTma s.tma tr }) ∧
    (start.getLsbD 0 = true →
      trapReturn c f ⟨takeTrap c tr start s, n⟩ = .trap (.bus start 1#2) ⟨takeTrap c tr start s, n⟩)

/-! ### The special registers -/

/-- Each of TPC, TMA, TSV and CYC holds in privileged code what was last written to it, all 32 bits, and a read and a
write of MMUDATA are those of the memory-management unit (42_special_register_access.md R152 to R157). -/
def Obligations.SpecialRegistersHoldWhatIsWritten : Prop :=
  ∀ (c : Config) (v : Word) (w : Work), inPrivileged c w.st = true →
    (∃ w', writeSpecial c .tpc v w = .ok () w' ∧ w'.st = { w.st with tpc := v } ∧
      readSpecial c .tpc w' = .ok v w') ∧
    (∃ w', writeSpecial c .tma v w = .ok () w' ∧ w'.st = { w.st with tma := v } ∧
      readSpecial c .tma w' = .ok v w') ∧
    (∃ w', writeSpecial c .tsv v w = .ok () w' ∧ w'.st = { w.st with tsv := v } ∧
      readSpecial c .tsv w' = .ok v w') ∧
    (∃ w', writeSpecial c .cyc v w = .ok () w' ∧ w'.st = { w.st with cyc := v } ∧
      readSpecial c .cyc w' = .ok v w') ∧
    readSpecial c .mmudata w = .ok (readMmuData c w.st).1 { w with st := (readMmuData c w.st).2 } ∧
    writeSpecial c .mmudata v w = .ok () { w with st := writeMmuData c v w.st }

/-- A special register other than the PSW is out of reach of unprivileged code: reading it and writing it trap (the kind
of trap is the spec's own, 92 D21; 42 R158). -/
def Obligations.PrivilegedRegistersTrap : Prop :=
  ∀ (c : Config) (reg : SpecialReg) (v : Word) (w : Work), inPrivileged c w.st = false → reg ≠ .psw →
    readSpecial c reg w = .trap .privilege w ∧ writeSpecial c reg v w = .trap .privilege w

/-- Privileged code writes every field of the PSW, bit 31 of the value switches the memory-management unit, and a read
gives the value back in every bit that is used (42 R151). -/
def Obligations.PswWriteSetsEveryField : Prop :=
  ∀ (c : Config) (v : Word) (w : Work), inPrivileged c w.st = true →
    ∃ w', writeSpecial c .psw v w = .ok () w' ∧ levelOf w'.st.psw = levelOf v ∧
      priorOf w'.st.psw = priorOf v ∧ ccOf w'.st.psw = ccOf v ∧ bcdOf c w'.st.psw = bcdOf c v ∧
      unitOn w'.st.psw = v.getLsbD 31 ∧ w'.st = { w.st with psw := w'.st.psw } ∧
      ∃ r w'', readSpecial c .psw w' = .ok r w'' ∧ r &&& pswMask c = v &&& pswMask c

/-- Unprivileged code writes the condition codes and the bcd carry of the PSW, and traps where it would change level or
prior (42 R151, the decision 92 D21); it reads the PSW as anyone. -/
def Obligations.PswWriteByUnprivilegedCode : Prop :=
  ∀ (c : Config) (v : Word) (w : Work), inPrivileged c w.st = false →
    (levelOf v = levelOf w.st.psw ∧ priorOf v = priorOf w.st.psw →
      ∃ w', writeSpecial c .psw v w = .ok () w' ∧ levelOf w'.st.psw = levelOf w.st.psw ∧
        priorOf w'.st.psw = priorOf w.st.psw ∧ ccOf w'.st.psw = ccOf v ∧
        bcdOf c w'.st.psw = bcdOf c v ∧ w'.st = { w.st with psw := w'.st.psw }) ∧
    (¬(levelOf v = levelOf w.st.psw ∧ priorOf v = priorOf w.st.psw) →
      writeSpecial c .psw v w = .trap .privilege w) ∧
    ∃ r w', readSpecial c .psw w = .ok r w' ∧ r &&& pswMask c = w.st.psw &&& pswMask c

/-! ### The coprocessors -/

/-- At most one coprocessor is active, the selected one (10_state.md R34). -/
def Obligations.AtMostOneCoprocessorIsActive : Prop :=
  ∀ (c : Config) (costat : Word) (m n : BitVec 3),
    coStateOf c costat m = .active → coStateOf c costat n = .active → m = n ∧ n = selectOf costat ∧ n ≠ 0#3

/-- COGET of register 0 reads COSTAT into a general register, whatever the coprocessors are, and never traps for their
state; it changes no other register but the pc, `cyc` and, as the source does not exclude, the condition codes
(41_coprocessor.md R140, R142; log 4, log 9). -/
def Obligations.CogetOfCostatCompletes : Prop :=
  everyMachine fun c exec => ∀ (dst : Nibble) (s : State), coImplemented c = true →
    FetchesFurther c (coFurtherOf c s) s → dst ≠ 0#4 →
    ∃ t, exec (.coget dst 0#4) s = .next t ∧ readStored t dst &&& costatMask = s.costat &&& costatMask ∧
      (∀ n, n ≠ 0#4 → n ≠ dst → readStored t n = readStored s n) ∧
      t = { afterHalfwords (coFurtherOf c s) s with
        regs := t.regs, psw := withCC s.psw (ccOf t.psw), draws := t.draws }

/-- COGET of another register of the active coprocessor puts into a general register what `CoRead` answers; the state
of the coprocessor is what `CoRead` leaves, and no other coprocessor changes (41_coprocessor.md R140, R147; log 4,
log 9, log 14). -/
def Obligations.CogetOfActiveCoprocessorCompletes : Prop :=
  everyMachine fun c exec => ∀ (dst k : Nibble) (s : State), coImplemented c = true →
    FetchesFurther c (coFurtherOf c s) s → dst ≠ 0#4 → k ≠ 0#4 →
    coStateOf c s.costat (selectOf s.costat) = .active →
    let sel := selectOf s.costat
    let r := c.coRead sel k (coopOf s.costat) (unitAt s sel)
    ∃ t, exec (.coget dst k) s = .next t ∧ readStored t dst = r.1 ∧
      (∀ n, n ≠ 0#4 → n ≠ dst → readStored t n = readStored s n) ∧
      unitAt t sel = restrictUnit c sel r.2 ∧ (∀ n, n ≠ 0#3 → n ≠ sel → unitAt t n = unitAt s n) ∧
      t = { afterHalfwords (coFurtherOf c s) s with
        regs := t.regs, psw := withCC s.psw (ccOf t.psw), co := t.co, draws := t.draws }

/-- COGET with destination 0, whose reading is open (41_coprocessor.md R140, 40 R125; log 10): the value is discarded,
or it is the new pc, for which an odd value traps (log 9, log 12). In each clause the further halfwords, if the
instruction has any, are fetched first and their contents not used, which is the model's choice of log 4. -/
def Obligations.CogetToRegisterZero : Prop :=
  everyMachine fun c exec => ∀ (k : Nibble) (s : State) (w1 w2 : Work) (v : Word), coImplemented c = true →
    skipHalfwords c (coFurtherOf c s) ⟨s, 0⟩ = .ok () w1 → coGetValue c k w1 = .ok v w2 →
    (c.cogetZero = .discard → ∃ t, exec (.coget 0#4 k) s = .next t ∧
      t = { afterHalfwords (coFurtherOf c s) s with
        psw := withCC s.psw (ccOf t.psw), co := w2.st.co, draws := t.draws }) ∧
    (c.cogetZero = .jump → v.getLsbD 0 = false → ∃ t, exec (.coget 0#4 k) s = .next t ∧
      t = { afterHalfwords (coFurtherOf c s) s with
        pc := v, psw := withCC s.psw (ccOf t.psw), co := w2.st.co, draws := t.draws }) ∧
    (c.cogetZero = .jump → v.getLsbD 0 = true → ∃ t, exec (.coget 0#4 k) s = .next t ∧
      t.pc = trapVector c .bus ∧ t.tpc = s.pc - 2#32 ∧ t.tma = v.extractLsb' 2 30 ++ 1#2 ∧
      t = { s with
        tpc := t.tpc, tma := t.tma, pc := t.pc, psw := t.psw
        cyc := (afterHalfwords (coFurtherOf c s) s).cyc, draws := t.draws })

/-- COSET of register 0 writes the fields of COSTAT from the source, any general register or the reading of number 0,
whatever the coprocessors are; a coprocessor whose enable bit stays as it was keeps its registers, and the enable bit
of an absent one is plain storage (41_coprocessor.md R141, R142, R146, 10_state.md R32; log 4, log 9, log 13). R141
gives no reading of source 0: that it is one of the two of 40 R125, as a parameter says, is the model's choice of
log 10. -/
def Obligations.CosetOfCostatCompletes : Prop :=
  everyMachine fun c exec => ∀ (src : Nibble) (s : State), coImplemented c = true →
    FetchesFurther c (coFurtherOf c s) s →
    let v := readReg (afterHalfwords (coFurtherOf c s) s) src c.cosetZero
    ∃ t, exec (.coset src 0#4) s = .next t ∧ coopOf t.costat = coopOf v ∧
      selectOf t.costat = selectOf v ∧ (∀ n, n ≠ 0#3 → enabledIn t.costat n = enabledIn v n) ∧
      (∀ n, n ≠ 0#3 → (present c n = true → enabledIn s.costat n = enabledIn v n) → unitAt t n = unitAt s n) ∧
      t = { afterHalfwords (coFurtherOf c s) s with
        psw := withCC s.psw (ccOf t.psw), costat := t.costat, co := t.co, draws := t.draws }

/-- COSET of another register of the active coprocessor does to it what `CoWrite` does, and no other coprocessor
changes (41_coprocessor.md R141, R147; log 4, log 9, log 14). That source 0 has one of the two readings of 40 R125, as
a parameter says, is the model's choice of log 10. -/
def Obligations.CosetOfActiveCoprocessorCompletes : Prop :=
  everyMachine fun c exec => ∀ (src k : Nibble) (s : State), coImplemented c = true →
    FetchesFurther c (coFurtherOf c s) s → k ≠ 0#4 →
    coStateOf c s.costat (selectOf s.costat) = .active →
    let sel := selectOf s.costat
    let v := readReg (afterHalfwords (coFurtherOf c s) s) src c.cosetZero
    ∃ t, exec (.coset src k) s = .next t ∧
      unitAt t sel = restrictUnit c sel (c.coWrite sel k (coopOf s.costat) v (unitAt s sel)) ∧
      (∀ n, n ≠ 0#3 → n ≠ sel → unitAt t n = unitAt s n) ∧
      t = { afterHalfwords (coFurtherOf c s) s with
        psw := withCC s.psw (ccOf t.psw), co := t.co, draws := t.draws }

/-- COGET and COSET of a register other than 0 trap where the selected coprocessor is not active (absent, disabled, or
none selected), and then transfer nothing (41_coprocessor.md R143, R145; log 4). -/
def Obligations.CoprocessorTrapUnlessActive : Prop :=
  everyMachine fun c exec => ∀ (r k : Nibble) (s : State), coImplemented c = true → k ≠ 0#4 →
    coStateOf c s.costat (selectOf s.costat) ≠ .active →
    (FetchesFurther c (coFurtherOf c s) s → ∃ t, exec (.coget r k) s = .next t ∧ t.tpc = s.pc - 2#32 ∧
      t.pc = trapVector c .coprocessor ∧ priorOf t.psw = levelOf s.psw ∧ ccOf t.psw = ccOf s.psw ∧
      t = { s with
        tpc := t.tpc, pc := t.pc, psw := t.psw
        cyc := (afterHalfwords (coFurtherOf c s) s).cyc }) ∧
    (FetchesFurther c (coFurtherOf c s) s → ∃ t, exec (.coset r k) s = .next t ∧ t.tpc = s.pc - 2#32 ∧
      t.pc = trapVector c .coprocessor ∧ priorOf t.psw = levelOf s.psw ∧ ccOf t.psw = ccOf s.psw ∧
      t = { s with
        tpc := t.tpc, pc := t.pc, psw := t.psw
        cyc := (afterHalfwords (coFurtherOf c s) s).cyc })

/-- COGET and COSET that are not implemented are invalid operation codes, and they may be so only where no coprocessor
is present (41_coprocessor.md R144; the trap is the decision 92 D36). -/
def Obligations.UnimplementedCoprocessorInstructionsTrap : Prop :=
  everyMachine fun c exec => ∀ (r k : Nibble) (s : State), coImplemented c = false →
    (∀ n, present c n = false) ∧
    exec (.coget r k) s = .next (takeTrap c .invalidOpcode (s.pc - 2#32) s) ∧
    exec (.coset r k) s = .next (takeTrap c .invalidOpcode (s.pc - 2#32) s)

/-- A word sent to a register of an active coprocessor of plain storage comes back (41_coprocessor.md R147, 95 V8.4),
with instructions of one halfword. -/
def Obligations.StorageCoprocessorGivesBackTheWord : Prop :=
  everyMachine fun c exec => ∀ (src dst k : Nibble) (s : State), coImplemented c = true →
    coFurtherOf c s = 0 → src ≠ 0#4 → dst ≠ 0#4 → k ≠ 0#4 →
    coStateOf c s.costat (selectOf s.costat) = .active → PlainStorage c (selectOf s.costat) →
    c.coRegs (selectOf s.costat) k = true →
    ∃ t, exec (.coset src k) s = .next t ∧ coReg t (selectOf s.costat) k = readStored s src ∧
      ∀ h : Halfword, c.coFurther (splitHalfword h) = 0 →
        ∃ t', exec (.coget dst k) { t with ir := h } = .next t' ∧ readStored t' dst = readStored s src

/-! ### The other instructions -/

/-- An instruction of row any_instruction_halfword is the run of its operation: the state the run ends in, or the
entry of the trap it ends in (40_instruction_cycle.md R123; the language of operations is the model's, log 2). One
that completes and sets the pc nowhere leaves it past as many halfwords as the `Length` of the halfword in `ir` says
(30_encoding.md R111, 40 R124). -/
def Obligations.OtherInstructionRunsItsOperation : Prop :=
  everyMachine fun c exec => ∀ (f : IrFields) (s : State),
    ∃ t, exec (.anyInstructionHalfword f) s = .next t ∧
      (∀ u w, run c (c.isAdd f) (c.operation f).program ⟨s, 0⟩ = .ok u w → t = w.st ∧
        (staysInLine (c.operation f).program →
          decodeFields c (splitHalfword s.ir) = .ok (.anyInstructionHalfword f) →
          t.pc = s.pc - 2#32 + BitVec.ofNat 32 (2 * lengthOf c s.ir))) ∧
      (∀ tr w, run c (c.isAdd f) (c.operation f).program ⟨s, 0⟩ = .trap tr w →
        t = abandon c tr (s.pc - 2#32) s w)

/-- An instruction that moves a register to a register: source 0 reads as the constant zero or as the advanced pc,
destination 0 discards, and nothing else changes (40_instruction_cycle.md R125, 10_state.md R22; log 2). -/
def Obligations.RegisterMoveCompletes : Prop :=
  everyMachine fun c exec => ∀ (f : IrFields) (s : State) (d a : Nibble) (z : ZeroReading),
    c.operation f = ⟨0, .readReg a z fun v => .writeReg d v .done⟩ →
    ∃ t, exec (.anyInstructionHalfword f) s = .next t ∧
      (d = 0#4 → t = s) ∧
      (d ≠ 0#4 → readStored t d =
        if a = 0#4 then (match z with | .constantZero => 0#32 | .programCounter => s.pc) else readStored s a) ∧
      (∀ n, n ≠ 0#4 → n ≠ d → readStored t n = readStored s n) ∧ t = { s with regs := t.regs }

/-- A load instruction puts what its address refers to into its register, counts once more, and stores nothing
(20_memory.md R73, 40_instruction_cycle.md R129), whether its fields fix the address or it is computed from a register
(the primitives are the model's, log 2). -/
def Obligations.LoadInstructionCompletes : Prop :=
  everyMachine fun c exec => ∀ (f : IrFields) (s : State) (d : Nibble) (va pa : Word) (n : Width),
    (c.operation f = ⟨0, .load va n fun v => .writeReg d v .done⟩ ∨
      ∃ (a : Nibble) (z : ZeroReading) (g : Word → Word),
        c.operation f = ⟨0, .readReg a z fun x => .load (g x) n fun v => .writeReg d v .done⟩ ∧
          va = g (readReg s a z)) →
    translate c .load va s = .ok pa → c.real (wordOf pa) = true →
    ∃ t, exec (.anyInstructionHalfword f) s = .next t ∧
      (d ≠ 0#4 → readStored t d = loadBytes s.mem pa n) ∧ (d = 0#4 → t.regs = s.regs) ∧
      (∀ m, m ≠ 0#4 → m ≠ d → readStored t m = readStored s m) ∧
      t = { s with regs := t.regs, cyc := s.cyc + 1#32 }

/-- A store instruction replaces the bytes its translated address refers to and no others, counts once more, and changes
nothing else (20_memory.md R73, 40_instruction_cycle.md R129), whether its fields fix the address and the value or they
are computed from registers (the primitives are the model's, log 2). -/
def Obligations.StoreInstructionCompletes : Prop :=
  everyMachine fun c exec => ∀ (f : IrFields) (s : State) (va pa v : Word) (n : Width),
    (c.operation f = ⟨0, .store va n v .done⟩ ∨
      ∃ (a b : Nibble) (y z : ZeroReading) (g h : Word → Word),
        c.operation f = ⟨0, .readReg a y fun x => .readReg b z fun u => .store (g x) n (h u) .done⟩ ∧
          va = g (readReg s a y) ∧ v = h (readReg s b z)) →
    translate c .store va s = .ok pa → c.real (wordOf pa) = true →
    ∃ t, exec (.anyInstructionHalfword f) s = .next t ∧
      (∀ j, j < accessSize n → readByte t.mem (accessBase n pa + j) = v.extractLsb' (8 * j) 8) ∧
      (∀ b, b < accessBase n pa ∨ accessBase n pa + accessSize n ≤ b → readByte t.mem b = readByte s.mem b) ∧
      t = { s with mem := t.mem, cyc := s.cyc + 1#32 }

/-- A jump to an even address changes the pc and nothing else: no delay slot, and bit 1 of the target is legal
(40_instruction_cycle.md R128). The target is fixed by the fields of the instruction or computed from a register (the
primitives are the model's, log 2). -/
def Obligations.JumpInstructionCompletes : Prop :=
  everyMachine fun c exec => ∀ (f : IrFields) (s : State) (target : Word),
    (c.operation f = ⟨0, .setPc target .done⟩ ∨
      ∃ (a : Nibble) (z : ZeroReading) (g : Word → Word),
        c.operation f = ⟨0, .readReg a z fun x => .setPc (g x) .done⟩ ∧ target = g (readReg s a z)) →
    target.getLsbD 0 = false →
    exec (.anyInstructionHalfword f) s = .next { s with pc := target }

/-- A second halfword comes from the address in the pc, counts in `cyc`, and the pc passes it; where its page is not
mapped the MMU trap belongs to the instruction, whose first halfword `tpc` names, and `tma` names the second
(40_instruction_cycle.md R124). -/
def Obligations.SecondHalfwordIsFetchedOrTraps : Prop :=
  everyMachine fun c exec => ∀ (f : IrFields) (s : State) (d : Nibble),
    c.operation f = ⟨1, .nextHalfword fun h => .writeReg d (h.zeroExtend 32) .done⟩ →
    (∀ pa, translate c .fetch s.pc s = .ok pa → c.real (wordOf pa) = true →
      ∃ t, exec (.anyInstructionHalfword f) s = .next t ∧
        (d ≠ 0#4 → readStored t d = loadBytes s.mem pa .half) ∧
        (∀ m, m ≠ 0#4 → m ≠ d → readStored t m = readStored s m) ∧
        t = { s with regs := t.regs, pc := s.pc + 2#32, cyc := s.cyc + 1#32 }) ∧
    (unitOn s.psw = true → lookupPage s.mmu (pageOf s.pc) = none →
      ∃ t, exec (.anyInstructionHalfword f) s = .next t ∧ t.tpc = s.pc - 2#32 ∧
        t.tma = s.pc.extractLsb' 2 30 ++ c.mmuCause .nomatch ∧ t.pc = trapVector c .mmu ∧
        unitOn t.psw = false ∧
        t = { s with tpc := t.tpc, tma := t.tma, pc := t.pc, psw := t.psw, cyc := t.cyc })

/-- An instruction for privileged code only, run by other code, is the privilege trap and does nothing else; in
privileged code it is what it is without the check (60_exceptions.md R175; the decision 92 D21). R158 speaks of the
special registers and R188 leaves open which instructions are privileged: that an instruction may be so as a whole, by
a primitive of its operation, is the model's (log 25, log 2). -/
def Obligations.PrivilegedInstructionTraps : Prop :=
  everyMachine fun c exec => ∀ (f : IrFields) (s : State) (n : Nat) (p : Program n),
    c.operation f = ⟨n, .requirePrivilege p⟩ →
    (inPrivileged c s = false → ∃ t, exec (.anyInstructionHalfword f) s = .next t ∧ t.tpc = s.pc - 2#32 ∧
      t.pc = trapVector c .privilege ∧ priorOf t.psw = levelOf s.psw ∧ ccOf t.psw = ccOf s.psw ∧
      t = { s with tpc := t.tpc, pc := t.pc, psw := t.psw }) ∧
    (inPrivileged c s = true → exec (.anyInstructionHalfword f) s = .next (finish c s (run c (c.isAdd f) p ⟨s, 0⟩)))

/-- A return-from-trap instruction of privileged code, with an even `tpc`, goes to it, at the level `psw.prior` says,
and changes nothing else but `prior`, of which the source does not say what becomes (60_exceptions.md R185; log 18).
In code that is not privileged it is the privilege trap, since it uses TPC and changes the level (42 R151, R158); that
these hold of a return too is deduced (log 18). -/
def Obligations.ReturnInstructionCompletes : Prop :=
  everyMachine fun c exec => ∀ (f : IrFields) (s : State) (g : Nibble → Nibble),
    c.operation f = ⟨0, .trapReturn g⟩ →
    (inPrivileged c s = true → s.tpc.getLsbD 0 = false →
      ∃ t, exec (.anyInstructionHalfword f) s = .next t ∧ t.pc = s.tpc ∧ levelOf t.psw = priorOf s.psw ∧
        priorOf t.psw = g (priorOf s.psw) ∧ unitOn t.psw = s.psw.getLsbD 27 ∧ ccOf t.psw = ccOf s.psw ∧
        bcdOf c t.psw = bcdOf c s.psw ∧ t = { s with pc := t.pc, psw := t.psw }) ∧
    (inPrivileged c s = false → exec (.anyInstructionHalfword f) s =
      .next (takeTrap c .privilege (s.pc - 2#32) s))

/-- No instruction but COGET and COSET touches COSTAT or a coprocessor (10_state.md R30, 20_memory.md R66). -/
def Obligations.OnlyCoprocessorInstructionsReachCoprocessors : Prop :=
  everyMachine fun _ exec => ∀ (f : IrFields) (s t : State),
    exec (.anyInstructionHalfword f) s = .next t → t.costat = s.costat ∧ t.co = s.co

/-- The bcd carry is written by add instructions and by a write of the PSW, and by nothing else
(40_instruction_cycle.md R127; log 20). -/
def Obligations.OnlyAddInstructionsSetBcdCarry : Prop :=
  everyMachine fun c exec => ∀ (i : Instr) (s t : State),
    (∀ f, i = .anyInstructionHalfword f → c.isAdd f = false ∧ writesOnly (· ≠ .psw) (c.operation f).program) →
    exec i s = .next t → bcdOf c t.psw = bcdOf c s.psw

/-- `cyc` counts memory operations exactly: an instruction that does not write it adds the number of those it performed
(10_state.md R49, 20_memory.md R86). -/
def Obligations.CycCountsMemoryOperations : Prop :=
  everyMachine fun c exec => ∀ (i : Instr) (s : State),
    (∀ f, i = .anyInstructionHalfword f → writesOnly (· ≠ .cyc) (c.operation f).program) →
    ∃ t, exec i s = .next t ∧
      (∀ u w, workIn c i ⟨s, 0⟩ = .ok u w → t.cyc = s.cyc + BitVec.ofNat 32 w.ops) ∧
      (∀ tr w, workIn c i ⟨s, 0⟩ = .trap tr w → t.cyc = s.cyc + BitVec.ofNat 32 w.ops)

/-- TSV has no hardware function: what no instruction writes stays, through traps too (10_state.md R48). -/
def Obligations.TsvIsChangedBySoftwareOnly : Prop :=
  everyMachine fun c exec => ∀ (i : Instr) (s t : State),
    (∀ f, i = .anyInstructionHalfword f → writesOnly (· ≠ .tsv) (c.operation f).program) →
    exec i s = .next t → t.tsv = s.tsv

/-! ### Whole-machine rules -/

/-- Application code cannot touch TPC, TMA, TSV or the mapping registers, whatever the instruction set: an instruction
of unprivileged code traps, or leaves them all (10_state.md R20, 42 R158; for instructions whose operation the
language of log 2 can say). -/
def Obligations.UnprivilegedCodeKeepsPrivilegedRegisters : Prop :=
  everyMachine fun c exec => ∀ (i : Instr) (s t : State), inPrivileged c s = false →
    exec i s = .next t → TrappedFrom c s t ∨ KeepsPrivileged s t

/-- Unprivileged code leaves its level by a trap only, and keeps `prior` till then: a return from trap takes privileged
code (60_exceptions.md R188, 42 R151, R158; log 2, log 18). -/
def Obligations.UnprivilegedCodeChangesModeByTrapOnly : Prop :=
  everyMachine fun c exec => ∀ (i : Instr) (s t : State), inPrivileged c s = false →
    exec i s = .next t →
    TrappedFrom c s t ∨ (levelOf t.psw = levelOf s.psw ∧ priorOf t.psw = priorOf s.psw)

/-- Isolation by the memory-management unit: unprivileged code that runs with the unit on changes no byte of memory
outside the pages that a valid mapping register gives it for writing (20_memory.md R76, R77; log 2). -/
def Obligations.MappingRegistersIsolateMemory : Prop :=
  everyMachine fun c exec => ∀ (i : Instr) (s t : State), inPrivileged c s = false → unitOn s.psw = true →
    exec i s = .next t → ∀ a, ¬writableByte s a → readByte t.mem a = readByte s.mem a

/-- No memory comes or goes: with the unit on or off, no instruction changes a byte of a word that does not exist
(20_memory.md R72). -/
def Obligations.NonexistentMemoryIsNeverWritten : Prop :=
  everyMachine fun c exec => ∀ (i : Instr) (s t : State), exec i s = .next t →
    ∀ a, c.real (BitVec.ofNat 30 (a / 4)) = false → readByte t.mem a = readByte s.mem a

/-- Every step keeps the invariant: the pc even, the mapping registers at most `NMAP` and of distinct pages, memory in
its canonical form and within what exists, nothing in unused bits, nothing in coprocessor registers that do not exist
(10_state.md R27, R33, R35, R43, R51, 20_memory.md R72; that unused bits and absent registers hold 0 is the model's
choice, log 13 and log 14, and so is the canonical form of memory, log 6). -/
def Obligations.StepKeepsTheInvariant : Prop :=
  everyStep fun c step => ∀ s t : State, Inv c s → step s = .next t → Inv c t

/-- The state after reset has the invariant, under every configuration for every choice of the open reset values
(70_reset_and_hazards.md R201). `State.reset` is the one whose values are all 0, which is the model's choice (log 5). -/
def Obligations.ResetHasTheInvariant : Prop :=
  ∀ c : Config, (∀ r, Inv c (resetWith c r)) ∧ Inv c State.reset ∧ State.reset = resetWith c zeroReset

/-- What a reset leaves meets what the spec asks of any reset state (70_reset_and_hazards.md R201), and nothing else is
asked of it: every state of the machine is what a reset leaves, for some reset values (R200; log 1). Which of them
`State.reset` is, is the model's choice (log 5). -/
def Obligations.ResetIsAPermittedState : Prop :=
  (∀ c : Config, (∀ r, IsResetState c (resetWith c r)) ∧ IsResetState c State.reset) ∧
    ∀ (c : Config) (s : State), Inv c s → s.draws = 0 →
      IsResetState c s ∧ ∃ r, s = resetWith c r

/-! ### Notation -/

/-- The three shifts for counts 0 to 31, as arithmetic; a count of 32 or more has no result (00_scope.md R9). -/
def Obligations.ShiftsAreArithmetic : Prop :=
  ∀ (a : Word) (b : Nat),
    (b ≤ 31 → shiftLeft a b = some (BitVec.ofNat 32 (a.toNat * 2 ^ b)) ∧
      shiftRightUnsigned a b = some (BitVec.ofNat 32 (a.toNat / 2 ^ b)) ∧
      shiftRightSigned a b = some (BitVec.ofInt 32 (a.toInt / 2 ^ b))) ∧
    (32 ≤ b → shiftLeft a b = none ∧ shiftRightUnsigned a b = none ∧ shiftRightSigned a b = none)

/-- Sign extension repeats the top bit, and zero padding adds zeros, for a field of up to 32 bits (00_scope.md R11). -/
def Obligations.ExtensionsRepeatTheTopBitOrZero : Prop :=
  ∀ (n : Nat) (v : BitVec n), 0 < n → n ≤ 32 → ∀ i, i < 32 →
    (sext v).getLsbD i = (if i < n then v.getLsbD i else v.msb) ∧
    (zext v).getLsbD i = if i < n then v.getLsbD i else false

/-! ### The flags -/

/-- An add instruction that sets the bcd carry sets that field and no other bit of the PSW, and an instruction that
writes N Z V C changes these four bits only; an arithmetic instruction that reads two registers, writes one and sets
the condition codes, and as an add instruction the bcd carry, completes and changes nothing else
(40_instruction_cycle.md R126, R127, 10_state.md R37; the values are open and any functions here, and the primitives
are the model's, log 2). -/
def Obligations.FlagWritingInstructionsComplete : Prop :=
  everyMachine fun c exec => ∀ (f : IrFields) (s : State),
    (∀ v, c.operation f = ⟨0, .writeBcd v .done⟩ → c.isAdd f = true →
      ∃ t, exec (.anyInstructionHalfword f) s = .next t ∧ t = { s with psw := t.psw } ∧
        ∀ i, t.psw.getLsbD i =
          if bcdLo c ≤ i ∧ i ≤ bcdHi c then v.getLsbD (i - bcdLo c) else s.psw.getLsbD i) ∧
    (∀ cc, c.operation f = ⟨0, .writeCC cc .done⟩ →
      ∃ t, exec (.anyInstructionHalfword f) s = .next t ∧ t = { s with psw := t.psw } ∧
        flagN t.psw = cc.getLsbD 3 ∧ flagZ t.psw = cc.getLsbD 2 ∧ flagV t.psw = cc.getLsbD 1 ∧
        flagC t.psw = cc.getLsbD 0 ∧ ∀ i, 4 ≤ i → t.psw.getLsbD i = s.psw.getLsbD i) ∧
    (∀ (a b d : Nibble) (y z : ZeroReading) (g k : Word → Word → Word) (h : Word → Word → Nibble),
      c.operation f = ⟨0, .readReg a y fun x => .readReg b z fun u =>
        .writeReg d (g x u) (.writeCC (h x u) (.writeBcd (k x u) .done))⟩ →
      ∃ t, exec (.anyInstructionHalfword f) s = .next t ∧
        (d ≠ 0#4 → readStored t d = g (readReg s a y) (readReg s b z)) ∧
        (∀ n, n ≠ 0#4 → n ≠ d → readStored t n = readStored s n) ∧
        ccOf t.psw = h (readReg s a y) (readReg s b z) ∧
        (∀ i, 4 ≤ i → t.psw.getLsbD i =
          if bcdLo c ≤ i ∧ i ≤ bcdHi c ∧ c.isAdd f = true then
            (k (readReg s a y) (readReg s b z)).getLsbD (i - bcdLo c)
          else s.psw.getLsbD i) ∧
        t = { s with regs := t.regs, psw := t.psw })
end

