-- ==== Sys2Proof/Laws/Encoding.lean ====
section
/-! SUPPORT. The search of the encoder finds a halfword exactly where an instruction is well formed. -/

namespace Sys2Proof

theorem mem_nibbles (n : Nibble) : n ∈ nibbles := by revert n; decide

/-- Fields of the kind asked for that pass the check are found by `someFields`. -/
theorem someFields_of {c : Config} {kind : OpKind} {ok : IrFields → Bool} (f : IrFields)
    (h : c.opKind f.op f.s1 f.s2 = kind) (h' : ok f = true) : someFields c kind ok = true := by
  simp only [someFields, List.any_eq_true, Bool.and_eq_true]
  exact ⟨f.op, mem_nibbles _, f.s1, mem_nibbles _, f.s2, mem_nibbles _, by simpa using h, f.dst,
    mem_nibbles _, h'⟩

/-- What `findFields` finds is of the kind asked for and passes the check. -/
theorem findFields_eq_some {c : Config} {kind : OpKind} {ok : IrFields → Bool} {f : IrFields}
    (hf : findFields c kind ok = some f) : c.opKind f.op f.s1 f.s2 = kind ∧ ok f = true := by
  simp only [findFields] at hf
  obtain ⟨op, -, hf⟩ := List.exists_of_findSome?_eq_some hf
  obtain ⟨s1, -, hf⟩ := List.exists_of_findSome?_eq_some hf
  obtain ⟨s2, -, hf⟩ := List.exists_of_findSome?_eq_some hf
  split at hf
  · next hk =>
    obtain ⟨d, -, hf⟩ := List.exists_of_findSome?_eq_some hf
    split at hf
    · next ho => cases hf; exact ⟨by simpa using hk, ho⟩
    · cases hf
  · cases hf

/-- Where some fields do, `findFields` finds some. -/
theorem findFields_of_someFields {c : Config} {kind : OpKind} {ok : IrFields → Bool}
    (h : someFields c kind ok = true) :
    ∃ f, findFields c kind ok = some f ∧ c.opKind f.op f.s1 f.s2 = kind ∧ ok f = true := by
  cases hff : findFields c kind ok with
  | some f => exact ⟨f, rfl, findFields_eq_some hff⟩
  | none =>
    exfalso
    simp only [findFields, List.findSome?_eq_none_iff] at hff
    simp only [someFields, List.any_eq_true, Bool.and_eq_true] at h
    obtain ⟨op, h1, s1, h2, s2, h3, hk, d, h4, ho⟩ := h
    have := hff op h1 s1 h2 s2 h3
    rw [if_pos hk, List.findSome?_eq_none_iff] at this
    have := this d h4
    rw [if_pos ho] at this
    cases this

/-- The search succeeds exactly where the check does. -/
theorem isSome_findFields (c : Config) (kind : OpKind) (ok : IrFields → Bool) :
    (findFields c kind ok).isSome = someFields c kind ok := by
  cases h : findFields c kind ok with
  | some f =>
    have := findFields_eq_some h
    exact (someFields_of f this.1 this.2).symm
  | none =>
    cases hs : someFields c kind ok with
    | false => rfl
    | true =>
      obtain ⟨f, hf, -⟩ := findFields_of_someFields hs
      rw [h] at hf; cases hf

/-- A decoded instruction is a well-formed one. -/
theorem wellFormed_of_decodeFields {c : Config} {f : IrFields} {i : Instr}
    (hf : decodeFields c f = .ok i) : wellFormed c i = true := by
  unfold decodeFields at hf
  split at hf
  · cases hf
  · next hk =>
    cases hf; simp only [wellFormed]
    exact someFields_of f hk (by simp only [beq_self_eq_true, Bool.and_self])
  · next hk =>
    cases hf; simp only [wellFormed]
    exact someFields_of f hk (by simp only [beq_self_eq_true, Bool.and_self])
  · next hk => cases hf; simp only [wellFormed, hk, beq_self_eq_true]

end Sys2Proof
end

