-- ==== Sys2Proof/Laws/State.lean ====
section
/-! SUPPORT. Each named update of the state, field by field. -/

namespace Sys2Proof.Machine

open Sys2Proof

@[simp] theorem updated_st (w : Work) (f : State → State) : (updated w f).st = f w.st := rfl
@[simp] theorem updated_ops (w : Work) (f : State → State) : (updated w f).ops = w.ops := rfl
@[simp] theorem drawWord_value (c : Config) (s : State) : (drawWord c s).1 = c.free s.draws := rfl
@[simp] theorem countOp_ops (w : Work) : (countOp w).ops = w.ops + 1 := rfl
@[simp] theorem countOp_st (w : Work) : (countOp w).st = { w.st with cyc := w.st.cyc + 1#32 } := rfl

@[simp] theorem writeStored_regs (s : State) (n : Nibble) (v : Word) : (writeStored s n v).regs = s.regs.setIfInBounds (n.toNat - 1) v := rfl
@[simp] theorem writeStored_pc (s : State) (n : Nibble) (v : Word) : (writeStored s n v).pc = s.pc := rfl
@[simp] theorem writeStored_psw (s : State) (n : Nibble) (v : Word) : (writeStored s n v).psw = s.psw := rfl
@[simp] theorem writeStored_costat (s : State) (n : Nibble) (v : Word) : (writeStored s n v).costat = s.costat := rfl
@[simp] theorem writeStored_tpc (s : State) (n : Nibble) (v : Word) : (writeStored s n v).tpc = s.tpc := rfl
@[simp] theorem writeStored_tma (s : State) (n : Nibble) (v : Word) : (writeStored s n v).tma = s.tma := rfl
@[simp] theorem writeStored_tsv (s : State) (n : Nibble) (v : Word) : (writeStored s n v).tsv = s.tsv := rfl
@[simp] theorem writeStored_cyc (s : State) (n : Nibble) (v : Word) : (writeStored s n v).cyc = s.cyc := rfl
@[simp] theorem writeStored_mmu (s : State) (n : Nibble) (v : Word) : (writeStored s n v).mmu = s.mmu := rfl
@[simp] theorem writeStored_ir (s : State) (n : Nibble) (v : Word) : (writeStored s n v).ir = s.ir := rfl
@[simp] theorem writeStored_irq (s : State) (n : Nibble) (v : Word) : (writeStored s n v).irq = s.irq := rfl
@[simp] theorem writeStored_co (s : State) (n : Nibble) (v : Word) : (writeStored s n v).co = s.co := rfl
@[simp] theorem writeStored_mem (s : State) (n : Nibble) (v : Word) : (writeStored s n v).mem = s.mem := rfl
@[simp] theorem writeStored_draws (s : State) (n : Nibble) (v : Word) : (writeStored s n v).draws = s.draws := rfl

@[simp] theorem drawWord_state_regs (c : Config) (s : State) : ((drawWord c s).2).regs = s.regs := rfl
@[simp] theorem drawWord_state_pc (c : Config) (s : State) : ((drawWord c s).2).pc = s.pc := rfl
@[simp] theorem drawWord_state_psw (c : Config) (s : State) : ((drawWord c s).2).psw = s.psw := rfl
@[simp] theorem drawWord_state_costat (c : Config) (s : State) : ((drawWord c s).2).costat = s.costat := rfl
@[simp] theorem drawWord_state_tpc (c : Config) (s : State) : ((drawWord c s).2).tpc = s.tpc := rfl
@[simp] theorem drawWord_state_tma (c : Config) (s : State) : ((drawWord c s).2).tma = s.tma := rfl
@[simp] theorem drawWord_state_tsv (c : Config) (s : State) : ((drawWord c s).2).tsv = s.tsv := rfl
@[simp] theorem drawWord_state_cyc (c : Config) (s : State) : ((drawWord c s).2).cyc = s.cyc := rfl
@[simp] theorem drawWord_state_mmu (c : Config) (s : State) : ((drawWord c s).2).mmu = s.mmu := rfl
@[simp] theorem drawWord_state_ir (c : Config) (s : State) : ((drawWord c s).2).ir = s.ir := rfl
@[simp] theorem drawWord_state_irq (c : Config) (s : State) : ((drawWord c s).2).irq = s.irq := rfl
@[simp] theorem drawWord_state_co (c : Config) (s : State) : ((drawWord c s).2).co = s.co := rfl
@[simp] theorem drawWord_state_mem (c : Config) (s : State) : ((drawWord c s).2).mem = s.mem := rfl
@[simp] theorem drawWord_state_draws (c : Config) (s : State) : ((drawWord c s).2).draws = s.draws + 1 := rfl

@[simp] theorem advancePc_regs (s : State) : (advancePc s).regs = s.regs := rfl
@[simp] theorem advancePc_pc (s : State) : (advancePc s).pc = s.pc + 2#32 := rfl
@[simp] theorem advancePc_psw (s : State) : (advancePc s).psw = s.psw := rfl
@[simp] theorem advancePc_costat (s : State) : (advancePc s).costat = s.costat := rfl
@[simp] theorem advancePc_tpc (s : State) : (advancePc s).tpc = s.tpc := rfl
@[simp] theorem advancePc_tma (s : State) : (advancePc s).tma = s.tma := rfl
@[simp] theorem advancePc_tsv (s : State) : (advancePc s).tsv = s.tsv := rfl
@[simp] theorem advancePc_cyc (s : State) : (advancePc s).cyc = s.cyc := rfl
@[simp] theorem advancePc_mmu (s : State) : (advancePc s).mmu = s.mmu := rfl
@[simp] theorem advancePc_ir (s : State) : (advancePc s).ir = s.ir := rfl
@[simp] theorem advancePc_irq (s : State) : (advancePc s).irq = s.irq := rfl
@[simp] theorem advancePc_co (s : State) : (advancePc s).co = s.co := rfl
@[simp] theorem advancePc_mem (s : State) : (advancePc s).mem = s.mem := rfl
@[simp] theorem advancePc_draws (s : State) : (advancePc s).draws = s.draws := rfl

@[simp] theorem nextRequests_regs (c : Config) (s : State) : (nextRequests c s).regs = s.regs := rfl
@[simp] theorem nextRequests_pc (c : Config) (s : State) : (nextRequests c s).pc = s.pc := rfl
@[simp] theorem nextRequests_psw (c : Config) (s : State) : (nextRequests c s).psw = s.psw := rfl
@[simp] theorem nextRequests_costat (c : Config) (s : State) : (nextRequests c s).costat = s.costat := rfl
@[simp] theorem nextRequests_tpc (c : Config) (s : State) : (nextRequests c s).tpc = s.tpc := rfl
@[simp] theorem nextRequests_tma (c : Config) (s : State) : (nextRequests c s).tma = s.tma := rfl
@[simp] theorem nextRequests_tsv (c : Config) (s : State) : (nextRequests c s).tsv = s.tsv := rfl
@[simp] theorem nextRequests_cyc (c : Config) (s : State) : (nextRequests c s).cyc = s.cyc := rfl
@[simp] theorem nextRequests_mmu (c : Config) (s : State) : (nextRequests c s).mmu = s.mmu := rfl
@[simp] theorem nextRequests_ir (c : Config) (s : State) : (nextRequests c s).ir = s.ir := rfl
@[simp] theorem nextRequests_irq (c : Config) (s : State) : (nextRequests c s).irq = c.irqInput s.draws := rfl
@[simp] theorem nextRequests_co (c : Config) (s : State) : (nextRequests c s).co = s.co := rfl
@[simp] theorem nextRequests_mem (c : Config) (s : State) : (nextRequests c s).mem = s.mem := rfl
@[simp] theorem nextRequests_draws (c : Config) (s : State) : (nextRequests c s).draws = s.draws + 1 := rfl

@[simp] theorem takeTrap_regs (c : Config) (t : Trap) (a : Word) (s : State) : (takeTrap c t a s).regs = s.regs := rfl
@[simp] theorem takeTrap_pc (c : Config) (t : Trap) (a : Word) (s : State) : (takeTrap c t a s).pc = trapVector c (trapKind t) := rfl
@[simp] theorem takeTrap_psw (c : Config) (t : Trap) (a : Word) (s : State) : (takeTrap c t a s).psw = withLevel (withPrior s.psw (levelOf s.psw)) (trapLevel c (trapKind t) (levelOf s.psw)) := rfl
@[simp] theorem takeTrap_costat (c : Config) (t : Trap) (a : Word) (s : State) : (takeTrap c t a s).costat = s.costat := rfl
@[simp] theorem takeTrap_tpc (c : Config) (t : Trap) (a : Word) (s : State) : (takeTrap c t a s).tpc = a := rfl
@[simp] theorem takeTrap_tma (c : Config) (t : Trap) (a : Word) (s : State) : (takeTrap c t a s).tma = trapTma s.tma t := rfl
@[simp] theorem takeTrap_tsv (c : Config) (t : Trap) (a : Word) (s : State) : (takeTrap c t a s).tsv = s.tsv := rfl
@[simp] theorem takeTrap_cyc (c : Config) (t : Trap) (a : Word) (s : State) : (takeTrap c t a s).cyc = s.cyc := rfl
@[simp] theorem takeTrap_mmu (c : Config) (t : Trap) (a : Word) (s : State) : (takeTrap c t a s).mmu = s.mmu := rfl
@[simp] theorem takeTrap_ir (c : Config) (t : Trap) (a : Word) (s : State) : (takeTrap c t a s).ir = s.ir := rfl
@[simp] theorem takeTrap_irq (c : Config) (t : Trap) (a : Word) (s : State) : (takeTrap c t a s).irq = s.irq := rfl
@[simp] theorem takeTrap_co (c : Config) (t : Trap) (a : Word) (s : State) : (takeTrap c t a s).co = s.co := rfl
@[simp] theorem takeTrap_mem (c : Config) (t : Trap) (a : Word) (s : State) : (takeTrap c t a s).mem = s.mem := rfl
@[simp] theorem takeTrap_draws (c : Config) (t : Trap) (a : Word) (s : State) : (takeTrap c t a s).draws = s.draws := rfl

@[simp] theorem abandon_regs (c : Config) (t : Trap) (a : Word) (s : State) (w : Work) : (abandon c t a s w).regs = s.regs := rfl
@[simp] theorem abandon_pc (c : Config) (t : Trap) (a : Word) (s : State) (w : Work) : (abandon c t a s w).pc = trapVector c (trapKind t) := rfl
@[simp] theorem abandon_psw (c : Config) (t : Trap) (a : Word) (s : State) (w : Work) : (abandon c t a s w).psw = withLevel (withPrior s.psw (levelOf s.psw)) (trapLevel c (trapKind t) (levelOf s.psw)) := rfl
@[simp] theorem abandon_costat (c : Config) (t : Trap) (a : Word) (s : State) (w : Work) : (abandon c t a s w).costat = s.costat := rfl
@[simp] theorem abandon_tpc (c : Config) (t : Trap) (a : Word) (s : State) (w : Work) : (abandon c t a s w).tpc = a := rfl
@[simp] theorem abandon_tma (c : Config) (t : Trap) (a : Word) (s : State) (w : Work) : (abandon c t a s w).tma = trapTma s.tma t := rfl
@[simp] theorem abandon_tsv (c : Config) (t : Trap) (a : Word) (s : State) (w : Work) : (abandon c t a s w).tsv = s.tsv := rfl
@[simp] theorem abandon_cyc (c : Config) (t : Trap) (a : Word) (s : State) (w : Work) : (abandon c t a s w).cyc = s.cyc + BitVec.ofNat 32 w.ops := rfl
@[simp] theorem abandon_mmu (c : Config) (t : Trap) (a : Word) (s : State) (w : Work) : (abandon c t a s w).mmu = s.mmu := rfl
@[simp] theorem abandon_ir (c : Config) (t : Trap) (a : Word) (s : State) (w : Work) : (abandon c t a s w).ir = s.ir := rfl
@[simp] theorem abandon_irq (c : Config) (t : Trap) (a : Word) (s : State) (w : Work) : (abandon c t a s w).irq = s.irq := rfl
@[simp] theorem abandon_co (c : Config) (t : Trap) (a : Word) (s : State) (w : Work) : (abandon c t a s w).co = s.co := rfl
@[simp] theorem abandon_mem (c : Config) (t : Trap) (a : Word) (s : State) (w : Work) : (abandon c t a s w).mem = s.mem := rfl
@[simp] theorem abandon_draws (c : Config) (t : Trap) (a : Word) (s : State) (w : Work) : (abandon c t a s w).draws = w.st.draws := rfl

@[simp] theorem setUnit_regs (c : Config) (n : BitVec 3) (u : CoUnit) (s : State) : (setUnit c n u s).regs = s.regs := rfl
@[simp] theorem setUnit_pc (c : Config) (n : BitVec 3) (u : CoUnit) (s : State) : (setUnit c n u s).pc = s.pc := rfl
@[simp] theorem setUnit_psw (c : Config) (n : BitVec 3) (u : CoUnit) (s : State) : (setUnit c n u s).psw = s.psw := rfl
@[simp] theorem setUnit_costat (c : Config) (n : BitVec 3) (u : CoUnit) (s : State) : (setUnit c n u s).costat = s.costat := rfl
@[simp] theorem setUnit_tpc (c : Config) (n : BitVec 3) (u : CoUnit) (s : State) : (setUnit c n u s).tpc = s.tpc := rfl
@[simp] theorem setUnit_tma (c : Config) (n : BitVec 3) (u : CoUnit) (s : State) : (setUnit c n u s).tma = s.tma := rfl
@[simp] theorem setUnit_tsv (c : Config) (n : BitVec 3) (u : CoUnit) (s : State) : (setUnit c n u s).tsv = s.tsv := rfl
@[simp] theorem setUnit_cyc (c : Config) (n : BitVec 3) (u : CoUnit) (s : State) : (setUnit c n u s).cyc = s.cyc := rfl
@[simp] theorem setUnit_mmu (c : Config) (n : BitVec 3) (u : CoUnit) (s : State) : (setUnit c n u s).mmu = s.mmu := rfl
@[simp] theorem setUnit_ir (c : Config) (n : BitVec 3) (u : CoUnit) (s : State) : (setUnit c n u s).ir = s.ir := rfl
@[simp] theorem setUnit_irq (c : Config) (n : BitVec 3) (u : CoUnit) (s : State) : (setUnit c n u s).irq = s.irq := rfl
@[simp] theorem setUnit_co (c : Config) (n : BitVec 3) (u : CoUnit) (s : State) : (setUnit c n u s).co = s.co.setIfInBounds (n.toNat - 1) (restrictUnit c n u) := rfl
@[simp] theorem setUnit_mem (c : Config) (n : BitVec 3) (u : CoUnit) (s : State) : (setUnit c n u s).mem = s.mem := rfl
@[simp] theorem setUnit_draws (c : Config) (n : BitVec 3) (u : CoUnit) (s : State) : (setUnit c n u s).draws = s.draws := rfl

@[simp] theorem writeCostat_regs (c : Config) (v : Word) (s : State) : (writeCostat c v s).regs = s.regs := rfl
@[simp] theorem writeCostat_pc (c : Config) (v : Word) (s : State) : (writeCostat c v s).pc = s.pc := rfl
@[simp] theorem writeCostat_psw (c : Config) (v : Word) (s : State) : (writeCostat c v s).psw = s.psw := rfl
@[simp] theorem writeCostat_costat (c : Config) (v : Word) (s : State) : (writeCostat c v s).costat = v &&& costatMask := rfl
@[simp] theorem writeCostat_tpc (c : Config) (v : Word) (s : State) : (writeCostat c v s).tpc = s.tpc := rfl
@[simp] theorem writeCostat_tma (c : Config) (v : Word) (s : State) : (writeCostat c v s).tma = s.tma := rfl
@[simp] theorem writeCostat_tsv (c : Config) (v : Word) (s : State) : (writeCostat c v s).tsv = s.tsv := rfl
@[simp] theorem writeCostat_cyc (c : Config) (v : Word) (s : State) : (writeCostat c v s).cyc = s.cyc := rfl
@[simp] theorem writeCostat_mmu (c : Config) (v : Word) (s : State) : (writeCostat c v s).mmu = s.mmu := rfl
@[simp] theorem writeCostat_ir (c : Config) (v : Word) (s : State) : (writeCostat c v s).ir = s.ir := rfl
@[simp] theorem writeCostat_irq (c : Config) (v : Word) (s : State) : (writeCostat c v s).irq = s.irq := rfl
@[simp] theorem writeCostat_mem (c : Config) (v : Word) (s : State) : (writeCostat c v s).mem = s.mem := rfl
@[simp] theorem writeCostat_draws (c : Config) (v : Word) (s : State) : (writeCostat c v s).draws = s.draws + 7 := rfl

@[simp] theorem anyCC_regs (c : Config) (s : State) : (anyCC c s).regs = s.regs := rfl
@[simp] theorem anyCC_pc (c : Config) (s : State) : (anyCC c s).pc = s.pc := rfl
@[simp] theorem anyCC_psw (c : Config) (s : State) : (anyCC c s).psw = withCC s.psw ((c.free s.draws).extractLsb' 0 4) := rfl
@[simp] theorem anyCC_costat (c : Config) (s : State) : (anyCC c s).costat = s.costat := rfl
@[simp] theorem anyCC_tpc (c : Config) (s : State) : (anyCC c s).tpc = s.tpc := rfl
@[simp] theorem anyCC_tma (c : Config) (s : State) : (anyCC c s).tma = s.tma := rfl
@[simp] theorem anyCC_tsv (c : Config) (s : State) : (anyCC c s).tsv = s.tsv := rfl
@[simp] theorem anyCC_cyc (c : Config) (s : State) : (anyCC c s).cyc = s.cyc := rfl
@[simp] theorem anyCC_mmu (c : Config) (s : State) : (anyCC c s).mmu = s.mmu := rfl
@[simp] theorem anyCC_ir (c : Config) (s : State) : (anyCC c s).ir = s.ir := rfl
@[simp] theorem anyCC_irq (c : Config) (s : State) : (anyCC c s).irq = s.irq := rfl
@[simp] theorem anyCC_co (c : Config) (s : State) : (anyCC c s).co = s.co := rfl
@[simp] theorem anyCC_mem (c : Config) (s : State) : (anyCC c s).mem = s.mem := rfl
@[simp] theorem anyCC_draws (c : Config) (s : State) : (anyCC c s).draws = s.draws + 1 := rfl

@[simp] theorem readPsw_state_regs (c : Config) (s : State) : ((readPsw c s).2).regs = s.regs := rfl
@[simp] theorem readPsw_state_pc (c : Config) (s : State) : ((readPsw c s).2).pc = s.pc := rfl
@[simp] theorem readPsw_state_psw (c : Config) (s : State) : ((readPsw c s).2).psw = s.psw := rfl
@[simp] theorem readPsw_state_costat (c : Config) (s : State) : ((readPsw c s).2).costat = s.costat := rfl
@[simp] theorem readPsw_state_tpc (c : Config) (s : State) : ((readPsw c s).2).tpc = s.tpc := rfl
@[simp] theorem readPsw_state_tma (c : Config) (s : State) : ((readPsw c s).2).tma = s.tma := rfl
@[simp] theorem readPsw_state_tsv (c : Config) (s : State) : ((readPsw c s).2).tsv = s.tsv := rfl
@[simp] theorem readPsw_state_cyc (c : Config) (s : State) : ((readPsw c s).2).cyc = s.cyc := rfl
@[simp] theorem readPsw_state_mmu (c : Config) (s : State) : ((readPsw c s).2).mmu = s.mmu := rfl
@[simp] theorem readPsw_state_ir (c : Config) (s : State) : ((readPsw c s).2).ir = s.ir := rfl
@[simp] theorem readPsw_state_irq (c : Config) (s : State) : ((readPsw c s).2).irq = s.irq := rfl
@[simp] theorem readPsw_state_co (c : Config) (s : State) : ((readPsw c s).2).co = s.co := rfl
@[simp] theorem readPsw_state_mem (c : Config) (s : State) : ((readPsw c s).2).mem = s.mem := rfl
@[simp] theorem readPsw_state_draws (c : Config) (s : State) : ((readPsw c s).2).draws = s.draws + 1 := rfl

@[simp] theorem readCostat_state_regs (c : Config) (s : State) : ((readCostat c s).2).regs = s.regs := rfl
@[simp] theorem readCostat_state_pc (c : Config) (s : State) : ((readCostat c s).2).pc = s.pc := rfl
@[simp] theorem readCostat_state_psw (c : Config) (s : State) : ((readCostat c s).2).psw = s.psw := rfl
@[simp] theorem readCostat_state_costat (c : Config) (s : State) : ((readCostat c s).2).costat = s.costat := rfl
@[simp] theorem readCostat_state_tpc (c : Config) (s : State) : ((readCostat c s).2).tpc = s.tpc := rfl
@[simp] theorem readCostat_state_tma (c : Config) (s : State) : ((readCostat c s).2).tma = s.tma := rfl
@[simp] theorem readCostat_state_tsv (c : Config) (s : State) : ((readCostat c s).2).tsv = s.tsv := rfl
@[simp] theorem readCostat_state_cyc (c : Config) (s : State) : ((readCostat c s).2).cyc = s.cyc := rfl
@[simp] theorem readCostat_state_mmu (c : Config) (s : State) : ((readCostat c s).2).mmu = s.mmu := rfl
@[simp] theorem readCostat_state_ir (c : Config) (s : State) : ((readCostat c s).2).ir = s.ir := rfl
@[simp] theorem readCostat_state_irq (c : Config) (s : State) : ((readCostat c s).2).irq = s.irq := rfl
@[simp] theorem readCostat_state_co (c : Config) (s : State) : ((readCostat c s).2).co = s.co := rfl
@[simp] theorem readCostat_state_mem (c : Config) (s : State) : ((readCostat c s).2).mem = s.mem := rfl
@[simp] theorem readCostat_state_draws (c : Config) (s : State) : ((readCostat c s).2).draws = s.draws + 1 := rfl

end Sys2Proof.Machine
end

