-- ==== Sys2Proof/Laws/Memory.lean ====
section
/-! SUPPORT. Physical memory: a byte read after a write, what a store leaves alone, and the canonical form. -/

namespace Sys2Proof.Machine

open Sys2Proof

theorem readByte_filter (m : Memory) (a b : Nat) (h : b ≠ a) :
    readByte (m.filter fun x => x.1 != a) b = readByte m b := by
  induction m with
  | nil => rfl
  | cons x m ih =>
    by_cases hx : x.1 = a
    · simp [hx, readByte, ih, h.symm]
    · simp [hx, readByte, ih]

theorem readByte_filter_same (m : Memory) (a : Nat) :
    readByte (m.filter fun x => x.1 != a) a = unlistedByte := by
  induction m with
  | nil => rfl
  | cons x m ih => by_cases hx : x.1 = a <;> simp [hx, readByte, ih]

theorem readByte_insertCell_ne (m : Memory) (a b : Nat) (v : Byte) (h : b ≠ a) :
    readByte (insertCell m a v) b = readByte m b := by
  induction m with
  | nil => simp [insertCell, readByte, h.symm]
  | cons x m ih =>
    by_cases hx : a < x.1
    · simp [insertCell, hx, readByte, h.symm]
    · simp [insertCell, hx, readByte, ih]

theorem readByte_insertCell_same (m : Memory) (a : Nat) (v : Byte) (h : ∀ x ∈ m, x.1 ≠ a) :
    readByte (insertCell m a v) a = v := by
  induction m with
  | nil => simp [insertCell, readByte]
  | cons x m ih =>
    by_cases hx : a < x.1
    · simp [insertCell, hx, readByte]
    · have hne : x.1 ≠ a := h x (by simp)
      simp [insertCell, hx, readByte, hne, ih fun y hy => h y (by simp [hy])]

/-- A byte written is the byte read. -/
@[simp] theorem readByte_writeByte_same (m : Memory) (a : Nat) (v : Byte) :
    readByte (writeByte m a v) a = v := by
  by_cases hv : v = unlistedByte
  · simp [writeByte, hv, readByte_filter_same]
  · simpa [writeByte, hv] using readByte_insertCell_same _ a v (by simp)

/-- A byte written leaves every other address as it was. -/
theorem readByte_writeByte_ne (m : Memory) (a b : Nat) (v : Byte) (h : b ≠ a) :
    readByte (writeByte m a v) b = readByte m b := by
  by_cases hv : v = unlistedByte
  · simp [writeByte, hv, readByte_filter _ _ _ h]
  · simp [writeByte, hv, readByte_insertCell_ne _ _ _ _ h, readByte_filter _ _ _ h]

theorem readByte_writeByte (m : Memory) (a b : Nat) (v : Byte) :
    readByte (writeByte m a v) b = if b = a then v else readByte m b := by
  by_cases h : b = a
  · simp [h]
  · simp [h, readByte_writeByte_ne]

theorem mem_insertCell (m : Memory) (a : Nat) (v : Byte) (x : Host.Cell) :
    x ∈ insertCell m a v ↔ x = (a, v) ∨ x ∈ m := by
  induction m with
  | nil => simp [insertCell]
  | cons y m ih =>
    by_cases hy : a < y.1
    · simp [insertCell, hy]
    · simp only [insertCell, hy, if_false, List.mem_cons, ih]; tauto

/-- An entry of memory after a write is the one written or an old one. -/
theorem mem_writeByte (m : Memory) (a : Nat) (v : Byte) (x : Host.Cell) (h : x ∈ writeByte m a v) :
    x = (a, v) ∨ x ∈ m := by
  by_cases hv : v = unlistedByte
  · simp [writeByte, hv] at h; exact .inr h.1
  · simp only [writeByte, hv, if_false, mem_insertCell, List.mem_filter] at h
    exact h.imp_right And.left

theorem pairwise_insertCell (m : Memory) (a : Nat) (v : Byte) (h : m.Pairwise fun x y => x.1 < y.1)
    (hne : ∀ x ∈ m, x.1 ≠ a) : (insertCell m a v).Pairwise fun x y => x.1 < y.1 := by
  induction m with
  | nil => simp [insertCell]
  | cons x m ih =>
    rw [List.pairwise_cons] at h
    by_cases hx : a < x.1
    · simp only [insertCell, hx, if_true, List.pairwise_cons]
      refine ⟨fun y hy => ?_, h.1, h.2⟩
      rcases List.mem_cons.1 hy with rfl | hy
      · exact hx
      · exact hx.trans (h.1 y hy)
    · simp only [insertCell, hx, if_false, List.pairwise_cons, mem_insertCell]
      refine ⟨fun y hy => ?_, ih h.2 fun y hy => hne y (by simp [hy])⟩
      rcases hy with rfl | hy
      · have := hne x (by simp); simp only; omega
      · exact h.1 y hy

/-- A write keeps the canonical form. -/
theorem wf_writeByte (m : Memory) (a : Nat) (v : Byte) (h : Memory.wf m) (ha : a < 2 ^ 32) :
    Memory.wf (writeByte m a v) := by
  refine ⟨?_, fun x hx => ?_⟩
  · by_cases hv : v = unlistedByte
    · simpa [writeByte, hv] using h.1.filter _
    · simpa [writeByte, hv] using pairwise_insertCell _ a v (h.1.filter _) (by simp)
  · by_cases hv : v = unlistedByte
    · simp [writeByte, hv] at hx; exact h.2 x hx.1
    · rcases mem_writeByte m a v x hx with rfl | hx
      · exact ⟨ha, hv⟩
      · exact h.2 x hx

/-- The addresses an access reaches. -/
theorem accessBase_lt (n : Width) (a : Word) : accessBase n a + accessSize n ≤ 2 ^ 32 := by
  have := a.isLt
  cases n <;> simp only [accessBase, accessSize] <;> omega

/-- The bytes a store reaches hold the value stored, the lowest its low bits (R67). -/
theorem readByte_storeBytes_inside (m : Memory) (pa : Word) (n : Width) (v : Word) (j : Nat)
    (h : j < accessSize n) :
    readByte (storeBytes m pa n v) (accessBase n pa + j) = v.extractLsb' (8 * j) 8 := by
  cases n <;> simp only [accessSize] at h <;> simp only [storeBytes] <;>
    generalize accessBase _ pa = a <;> interval_cases j <;> simp [readByte_writeByte]

/-- A store leaves every byte outside what it reaches. -/
theorem readByte_storeBytes_outside (m : Memory) (pa : Word) (n : Width) (v : Word) (b : Nat)
    (h : b < accessBase n pa ∨ accessBase n pa + accessSize n ≤ b) :
    readByte (storeBytes m pa n v) b = readByte m b := by
  cases n <;> simp only [accessSize] at h <;> simp only [storeBytes, readByte_writeByte] <;>
    generalize accessBase _ pa = a at * <;> repeat' split
  all_goals first | rfl | omega

/-- An entry of memory after a store is an old one or one of a byte the store reaches. -/
theorem mem_storeBytes (m : Memory) (pa : Word) (n : Width) (v : Word) (x : Host.Cell)
    (h : x ∈ storeBytes m pa n v) :
    x ∈ m ∨ accessBase n pa ≤ x.1 ∧ x.1 < accessBase n pa + accessSize n := by
  cases n <;> simp only [storeBytes, accessSize] at h ⊢ <;> generalize accessBase _ pa = a at *
  · rcases mem_writeByte _ _ _ _ h with rfl | h
    · exact .inr (by simp only; omega)
    rcases mem_writeByte _ _ _ _ h with rfl | h
    · exact .inr (by simp only; omega)
    rcases mem_writeByte _ _ _ _ h with rfl | h
    · exact .inr (by simp only; omega)
    rcases mem_writeByte _ _ _ _ h with rfl | h
    · exact .inr (by simp only; omega)
    · exact .inl h
  · rcases mem_writeByte _ _ _ _ h with rfl | h
    · exact .inr (by simp only; omega)
    rcases mem_writeByte _ _ _ _ h with rfl | h
    · exact .inr (by simp only; omega)
    · exact .inl h
  · rcases mem_writeByte _ _ _ _ h with rfl | h
    · exact .inr (by simp only; omega)
    · exact .inl h

/-- A store keeps the canonical form. -/
theorem wf_storeBytes (m : Memory) (pa : Word) (n : Width) (v : Word) (h : Memory.wf m) :
    Memory.wf (storeBytes m pa n v) := by
  have hb := accessBase_lt n pa
  cases n <;> simp only [accessSize] at hb <;> simp only [storeBytes]
  · exact wf_writeByte _ _ _ (wf_writeByte _ _ _ (wf_writeByte _ _ _ (wf_writeByte _ _ _ h (by omega))
      (by omega)) (by omega)) (by omega)
  · exact wf_writeByte _ _ _ (wf_writeByte _ _ _ h (by omega)) (by omega)
  · exact wf_writeByte _ _ _ h (by omega)

/-- The word at an address after a word store of it. -/
theorem loadBytes_storeBytes (m : Memory) (pa : Word) (n : Width) (v : Word) :
    loadBytes (storeBytes m pa n v) pa n =
      match n with
      | .word => v
      | .half => (v.extractLsb' 0 16).zeroExtend 32
      | .byte => (v.extractLsb' 0 8).zeroExtend 32 := by
  have h := readByte_storeBytes_inside m pa n v
  cases n <;> simp only [accessSize] at h <;> simp only [loadBytes]
  · have h0 := h 0 (by omega)
    have h1 := h 1 (by omega)
    have h2 := h 2 (by omega)
    have h3 := h 3 (by omega)
    rw [Nat.add_zero] at h0
    rw [h0, h1, h2, h3]
    refine BitVec.eq_of_getLsbD_eq fun i hi => ?_
    simp only [BitVec.getLsbD_append, BitVec.getLsbD_extractLsb']
    interval_cases i <;> simp
  · have h0 := h 0 (by omega)
    have h1 := h 1 (by omega)
    rw [Nat.add_zero] at h0
    rw [h0, h1]
    refine BitVec.eq_of_getLsbD_eq fun i hi => ?_
    simp only [BitVec.zeroExtend, BitVec.getLsbD_setWidth, BitVec.getLsbD_append, BitVec.getLsbD_extractLsb']
    interval_cases i <;> simp
  · have h0 := h 0 (by omega)
    rw [Nat.add_zero] at h0
    rw [h0]

/-- The halfword of two bytes of memory, the higher address in its high byte. -/
theorem half_loadBytes (m : Memory) (pa : Word) :
    (loadBytes m pa .half).extractLsb' 0 16 =
      readByte m (accessBase .half pa + 1) ++ readByte m (accessBase .half pa) := by
  simp only [loadBytes]
  apply BitVec.eq_of_getLsbD_eq
  intro i hi
  simp only [BitVec.getLsbD_extractLsb', BitVec.getLsbD_append, BitVec.truncate_eq_setWidth,
    BitVec.getLsbD_setWidth]
  interval_cases i <;> simp

/-- The bytes of a halfword of memory are those two bytes. -/
theorem halfwordBytes_loadBytes (m : Memory) (pa : Word) :
    halfwordBytes (readByte m (accessBase .half pa + 1) ++ readByte m (accessBase .half pa)) =
      [readByte m (accessBase .half pa), readByte m (accessBase .half pa + 1)] := by
  simp only [halfwordBytes, List.cons.injEq, and_true]
  constructor
  all_goals
    apply BitVec.eq_of_getLsbD_eq
    intro i hi
    simp only [BitVec.getLsbD_extractLsb', BitVec.getLsbD_append]
    interval_cases i <;> simp

/-- What an access reaches lies in one page and in one word. -/
theorem access_within (n : Width) (a : Word) (b : Nat)
    (h : accessBase n a ≤ b ∧ b < accessBase n a + accessSize n) :
    b / 4096 = a.toNat / 4096 ∧ b / 4 = a.toNat / 4 := by
  have := a.isLt
  cases n <;> simp [accessBase, accessSize] at h <;> omega

theorem ofNat_word (pa : Word) : BitVec.ofNat 30 (pa.toNat / 4) = wordOf pa := by
  apply BitVec.eq_of_toNat_eq
  have := pa.isLt
  simp [wordOf, Nat.shiftRight_eq_div_pow]

end Sys2Proof.Machine
end

