-- ==== Sys2Proof/Laws/Psw.lean ====
section
/-! SUPPORT. The fields of the PSW: each is what was last put in it, and no update of one touches another. -/

namespace Sys2Proof.Machine

open Sys2Proof

theorem bcdLo_range (c : Config) : 4 ≤ bcdLo c ∧ bcdLo c ≤ 23 := by
  unfold bcdLo; omega

theorem bcdHi_range (c : Config) : bcdLo c ≤ bcdHi c ∧ bcdHi c ≤ 23 := by
  have h := bcdLo_range c
  have : c.bcdSpanRaw % (24 - bcdLo c) < 24 - bcdLo c := Nat.mod_lt _ (by omega)
  unfold bcdHi; omega

/-- The bcd-carry field is bits `bcdHi` down to `bcdLo`. -/
theorem getLsbD_bcdMask (c : Config) (i : Nat) :
    (bcdMask c).getLsbD i = (decide (bcdLo c ≤ i) && decide (i ≤ bcdHi c)) := by
  have h1 := bcdLo_range c
  have h2 := bcdHi_range c
  rw [bcdMask, BitVec.getLsbD_shiftLeft, BitVec.getLsbD_ushiftRight, BitVec.getLsbD_allOnes]
  by_cases ha : bcdLo c ≤ i <;> by_cases hb : i ≤ bcdHi c <;> simp [ha, hb] <;> omega

/-- The used bits of the PSW: level and prior, bcd carry, condition codes. -/
theorem getLsbD_pswMask (c : Config) (i : Nat) :
    (pswMask c).getLsbD i =
      (decide (i < 4) || (decide (bcdLo c ≤ i) && decide (i ≤ bcdHi c)) ||
        (decide (24 ≤ i) && decide (i < 32))) := by
  have h1 := bcdLo_range c
  have h2 := bcdHi_range c
  rw [pswMask, BitVec.getLsbD_or, getLsbD_bcdMask]
  by_cases hi : i < 32
  · interval_cases i <;> simp
  · have h4 : ¬ i ≤ bcdHi c := by omega
    have h5 : (0xFF00000F#32).getLsbD i = false := BitVec.getLsbD_of_ge _ _ (by omega)
    rw [h5]; simp [hi, h4]; omega

theorem getLsbD_withLevel (p : Word) (l : Nibble) (i : Nat) :
    (withLevel p l).getLsbD i = if i < 28 then p.getLsbD i else l.getLsbD (i - 28) := by
  change BitVec.getLsbD (w := 4 + 28) (l ++ p.extractLsb' 0 28) i = _
  simp only [BitVec.getLsbD_append, BitVec.getLsbD_extractLsb']
  by_cases h : i < 28 <;> simp [h]

theorem getLsbD_withPrior (p : Word) (l : Nibble) (i : Nat) :
    (withPrior p l).getLsbD i =
      if 24 ≤ i ∧ i < 28 then l.getLsbD (i - 24) else p.getLsbD i := by
  change BitVec.getLsbD (w := 4 + 4 + 24) (p.extractLsb' 28 4 ++ l ++ p.extractLsb' 0 24) i = _
  simp only [BitVec.getLsbD_append, BitVec.getLsbD_extractLsb']
  by_cases h : i < 24
  · have : ¬ 24 ≤ i := by omega
    simp [h, this]
  · by_cases h2 : i < 28
    · have h3 : i - 24 < 4 := by omega
      have h4 : 24 ≤ i := by omega
      simp [h, h2, h3, h4]
    · have h3 : ¬ i - 24 < 4 := by omega
      by_cases h5 : i < 32
      · have h6 : i - 24 - 4 < 4 := by omega
        have h7 : 28 + (i - 24 - 4) = i := by omega
        simp [h, h2, h3, h6, h7]
      · have h6 : ¬ i - 24 - 4 < 4 := by omega
        simp [BitVec.getLsbD_of_ge _ i (by omega : 32 ≤ i), h, h2, h3, h6]

theorem getLsbD_withCC (p : Word) (cc : Nibble) (i : Nat) :
    (withCC p cc).getLsbD i = if i < 4 then cc.getLsbD i else p.getLsbD i := by
  change BitVec.getLsbD (w := 28 + 4) (p.extractLsb' 4 28 ++ cc) i = _
  simp only [BitVec.getLsbD_append, BitVec.getLsbD_extractLsb']
  by_cases h : i < 4
  · simp [h]
  · by_cases h5 : i < 32
    · have h6 : i - 4 < 28 := by omega
      have h7 : 4 + (i - 4) = i := by omega
      simp [h, h6, h7]
    · have h6 : ¬ i - 4 < 28 := by omega
      simp [BitVec.getLsbD_of_ge _ i (by omega : 32 ≤ i), h, h6]

theorem getLsbD_withBcd (c : Config) (p v : Word) (i : Nat) :
    (withBcd c p v).getLsbD i =
      if bcdLo c ≤ i ∧ i ≤ bcdHi c then v.getLsbD (i - bcdLo c) else p.getLsbD i := by
  have h2 := bcdHi_range c
  rw [withBcd, BitVec.getLsbD_or, BitVec.getLsbD_and, BitVec.getLsbD_and, BitVec.getLsbD_not,
    BitVec.getLsbD_shiftLeft, getLsbD_bcdMask]
  by_cases hi : i < 32
  · by_cases ha : bcdLo c ≤ i
    · by_cases hb : i ≤ bcdHi c
      · have : ¬ i < bcdLo c := by omega
        simp [ha, hb, hi, this]
      · simp [ha, hb, hi]
    · simp [ha, hi]
  · have : ¬ i ≤ bcdHi c := by omega
    simp [hi, this, BitVec.getLsbD_of_ge _ i (by omega : 32 ≤ i)]

theorem levelOf_ext (p q : Word) (h : ∀ i, 28 ≤ i → i < 32 → p.getLsbD i = q.getLsbD i) :
    levelOf p = levelOf q := by
  refine BitVec.eq_of_getLsbD_eq fun i hi => ?_
  simp [levelOf, hi, h (28 + i) (by omega) (by omega)]

theorem priorOf_ext (p q : Word) (h : ∀ i, 24 ≤ i → i < 28 → p.getLsbD i = q.getLsbD i) :
    priorOf p = priorOf q := by
  refine BitVec.eq_of_getLsbD_eq fun i hi => ?_
  simp [priorOf, hi, h (24 + i) (by omega) (by omega)]

theorem ccOf_ext (p q : Word) (h : ∀ i, i < 4 → p.getLsbD i = q.getLsbD i) : ccOf p = ccOf q := by
  refine BitVec.eq_of_getLsbD_eq fun i hi => ?_
  simp [ccOf, hi, h i hi]

theorem bcdOf_ext (c : Config) (p q : Word)
    (h : ∀ i, bcdLo c ≤ i → i ≤ bcdHi c → p.getLsbD i = q.getLsbD i) : bcdOf c p = bcdOf c q := by
  refine BitVec.eq_of_getLsbD_eq fun i hi => ?_
  rw [bcdOf, bcdOf, BitVec.getLsbD_ushiftRight, BitVec.getLsbD_ushiftRight, BitVec.getLsbD_and,
    BitVec.getLsbD_and, getLsbD_bcdMask]
  by_cases hb : bcdLo c + i ≤ bcdHi c
  · rw [h _ (by omega) hb]
  · simp [hb]

@[simp] theorem levelOf_withLevel (p : Word) (l : Nibble) : levelOf (withLevel p l) = l := by
  refine BitVec.eq_of_getLsbD_eq fun i hi => ?_
  simp [levelOf, hi, getLsbD_withLevel]

@[simp] theorem priorOf_withLevel (p : Word) (l : Nibble) : priorOf (withLevel p l) = priorOf p :=
  priorOf_ext _ _ fun i _ hi => by simp [getLsbD_withLevel, hi]

@[simp] theorem ccOf_withLevel (p : Word) (l : Nibble) : ccOf (withLevel p l) = ccOf p :=
  ccOf_ext _ _ fun i hi => by simp [getLsbD_withLevel, show i < 28 by omega]

@[simp] theorem bcdOf_withLevel (c : Config) (p : Word) (l : Nibble) :
    bcdOf c (withLevel p l) = bcdOf c p :=
  bcdOf_ext _ _ _ fun i _ hi => by
    have := bcdHi_range c
    simp [getLsbD_withLevel, show i < 28 by omega]

@[simp] theorem levelOf_withPrior (p : Word) (l : Nibble) : levelOf (withPrior p l) = levelOf p :=
  levelOf_ext _ _ fun i hi _ => by simp [getLsbD_withPrior, show ¬ i < 28 by omega]

@[simp] theorem priorOf_withPrior (p : Word) (l : Nibble) : priorOf (withPrior p l) = l := by
  refine BitVec.eq_of_getLsbD_eq fun i hi => ?_
  simp [priorOf, hi, getLsbD_withPrior, show 24 + i < 28 by omega]

@[simp] theorem ccOf_withPrior (p : Word) (l : Nibble) : ccOf (withPrior p l) = ccOf p :=
  ccOf_ext _ _ fun i hi => by simp [getLsbD_withPrior, show ¬ 24 ≤ i by omega]

@[simp] theorem bcdOf_withPrior (c : Config) (p : Word) (l : Nibble) :
    bcdOf c (withPrior p l) = bcdOf c p :=
  bcdOf_ext _ _ _ fun i _ hi => by
    have := bcdHi_range c
    simp [getLsbD_withPrior, show ¬ 24 ≤ i by omega]

@[simp] theorem levelOf_withCC (p : Word) (cc : Nibble) : levelOf (withCC p cc) = levelOf p :=
  levelOf_ext _ _ fun i hi _ => by simp [getLsbD_withCC, show ¬ i < 4 by omega]

@[simp] theorem priorOf_withCC (p : Word) (cc : Nibble) : priorOf (withCC p cc) = priorOf p :=
  priorOf_ext _ _ fun i hi _ => by simp [getLsbD_withCC, show ¬ i < 4 by omega]

@[simp] theorem ccOf_withCC (p : Word) (cc : Nibble) : ccOf (withCC p cc) = cc := by
  refine BitVec.eq_of_getLsbD_eq fun i hi => ?_
  simp [ccOf, hi, getLsbD_withCC]

@[simp] theorem bcdOf_withCC (c : Config) (p : Word) (cc : Nibble) :
    bcdOf c (withCC p cc) = bcdOf c p :=
  bcdOf_ext _ _ _ fun i hi _ => by
    have := bcdLo_range c
    simp [getLsbD_withCC, show ¬ i < 4 by omega]

@[simp] theorem levelOf_withBcd (c : Config) (p v : Word) : levelOf (withBcd c p v) = levelOf p :=
  levelOf_ext _ _ fun i hi _ => by
    have := bcdHi_range c
    simp [getLsbD_withBcd, show ¬ i ≤ bcdHi c by omega]

@[simp] theorem priorOf_withBcd (c : Config) (p v : Word) : priorOf (withBcd c p v) = priorOf p :=
  priorOf_ext _ _ fun i hi _ => by
    have := bcdHi_range c
    simp [getLsbD_withBcd, show ¬ i ≤ bcdHi c by omega]

@[simp] theorem ccOf_withBcd (c : Config) (p v : Word) : ccOf (withBcd c p v) = ccOf p :=
  ccOf_ext _ _ fun i hi => by
    have := bcdLo_range c
    simp [getLsbD_withBcd, show ¬ bcdLo c ≤ i by omega]

/-- A masked PSW keeps every field. -/
@[simp] theorem levelOf_and_pswMask (c : Config) (v : Word) : levelOf (v &&& pswMask c) = levelOf v :=
  levelOf_ext _ _ fun i hi h => by simp [getLsbD_pswMask, show 24 ≤ i by omega, h]

@[simp] theorem priorOf_and_pswMask (c : Config) (v : Word) : priorOf (v &&& pswMask c) = priorOf v :=
  priorOf_ext _ _ fun i hi h => by simp [getLsbD_pswMask, hi, show i < 32 by omega]

@[simp] theorem ccOf_and_pswMask (c : Config) (v : Word) : ccOf (v &&& pswMask c) = ccOf v :=
  ccOf_ext _ _ fun i hi => by simp [getLsbD_pswMask, hi]

@[simp] theorem bcdOf_and_pswMask (c : Config) (v : Word) : bcdOf c (v &&& pswMask c) = bcdOf c v :=
  bcdOf_ext _ _ _ fun i hl hh => by simp [getLsbD_pswMask, hl, hh]

/-- Nothing is held in the unused bits exactly when every unused bit is 0. -/
theorem and_not_eq_zero_iff (p m : Word) :
    p &&& ~~~m = 0#32 ↔ ∀ i, i < 32 → p.getLsbD i = true → m.getLsbD i = true := by
  constructor
  · intro h i hi hp
    have := congrArg (fun x => BitVec.getLsbD x i) h
    simpa [hi, hp] using this
  · intro h
    refine BitVec.eq_of_getLsbD_eq fun i hi => ?_
    have := h i hi
    cases hp : p.getLsbD i <;> simp_all

/-- The level that trap entry gives turns the memory-management unit off (60_exceptions.md R182). -/
theorem getLsbD_trapLevel_three (c : Config) (k : TrapKind) (old : Nibble) :
    (trapLevel c k old).getLsbD 3 = false := by
  change BitVec.getLsbD (w := 1 + 3) (0#1 ++ c.trapLevelLow k old) 3 = _
  simp only [BitVec.getLsbD_append]
  simp

/-- The level that trap entry gives is privileged (60_exceptions.md R182). -/
theorem privileged_trapLevel (c : Config) (k : TrapKind) (old : Nibble) :
    privileged c (trapLevel c k old) = true := by
  have h : old ∈ nibbles := by revert old; decide
  have hk : k ∈ allTrapKinds := by cases k <;> decide
  simp only [privileged, Bool.or_eq_true, List.any_eq_true, beq_iff_eq]
  exact .inr ⟨k, hk, old, h, rfl⟩

/-! Nothing unused: what every update of a field keeps. -/

theorem pswUnused_and (c : Config) (v : Word) : (v &&& pswMask c) &&& ~~~pswMask c = 0#32 := by
  rw [and_not_eq_zero_iff]
  intro i _ h
  simp only [BitVec.getLsbD_and, Bool.and_eq_true] at h
  exact h.2

theorem pswUnused_withLevel {c : Config} {p : Word} (l : Nibble) (h : p &&& ~~~pswMask c = 0#32) :
    withLevel p l &&& ~~~pswMask c = 0#32 := by
  rw [and_not_eq_zero_iff] at h ⊢
  intro i hi hm
  by_cases h2 : i < 28
  · rw [getLsbD_withLevel, if_pos h2] at hm; exact h i hi hm
  · rw [getLsbD_pswMask]; simp; omega

theorem pswUnused_withPrior {c : Config} {p : Word} (l : Nibble) (h : p &&& ~~~pswMask c = 0#32) :
    withPrior p l &&& ~~~pswMask c = 0#32 := by
  rw [and_not_eq_zero_iff] at h ⊢
  intro i hi hm
  by_cases h2 : 24 ≤ i ∧ i < 28
  · rw [getLsbD_pswMask]; simp; omega
  · rw [getLsbD_withPrior, if_neg h2] at hm; exact h i hi hm

theorem pswUnused_withCC {c : Config} {p : Word} (cc : Nibble) (h : p &&& ~~~pswMask c = 0#32) :
    withCC p cc &&& ~~~pswMask c = 0#32 := by
  rw [and_not_eq_zero_iff] at h ⊢
  intro i hi hm
  by_cases h2 : i < 4
  · rw [getLsbD_pswMask]; simp; omega
  · rw [getLsbD_withCC, if_neg h2] at hm; exact h i hi hm

theorem pswUnused_withBcd {c : Config} {p : Word} (v : Word) (h : p &&& ~~~pswMask c = 0#32) :
    withBcd c p v &&& ~~~pswMask c = 0#32 := by
  rw [and_not_eq_zero_iff] at h ⊢
  intro i hi hm
  by_cases h2 : bcdLo c ≤ i ∧ i ≤ bcdHi c
  · rw [getLsbD_pswMask]; simp; omega
  · rw [getLsbD_withBcd, if_neg h2] at hm; exact h i hi hm

/-- Bits 31 to 24 of a PSW are `level` and `prior`. -/
theorem level_prior_iff (a b : Word) :
    a.extractLsb' 24 8 = b.extractLsb' 24 8 ↔ levelOf a = levelOf b ∧ priorOf a = priorOf b := by
  constructor
  · intro h
    have key : ∀ i, 24 ≤ i → i < 32 → a.getLsbD i = b.getLsbD i := by
      intro i h1 h2
      have := congrArg (BitVec.getLsbD · (i - 24)) h
      have h3 : i - 24 < 8 := by omega
      simp only [BitVec.getLsbD_extractLsb', h3, decide_true, Bool.true_and] at this
      rwa [show 24 + (i - 24) = i by omega] at this
    exact ⟨levelOf_ext _ _ fun i h1 h2 => key i (by omega) h2,
      priorOf_ext _ _ fun i h1 h2 => key i h1 (by omega)⟩
  · rintro ⟨h1, h2⟩
    apply BitVec.eq_of_getLsbD_eq
    intro i hi
    simp only [BitVec.getLsbD_extractLsb', hi, decide_true, Bool.true_and]
    by_cases h : i < 4
    · have := congrArg (BitVec.getLsbD · i) h2
      simpa [priorOf, h] using this
    · have := congrArg (BitVec.getLsbD · (i - 4)) h1
      have h3 : i - 4 < 4 := by omega
      simp only [levelOf, BitVec.getLsbD_extractLsb', h3, decide_true, Bool.true_and] at this
      rwa [show 28 + (i - 4) = 24 + i by omega] at this

theorem unitOn_withLevel (p : Word) (l : Nibble) : unitOn (withLevel p l) = l.getLsbD 3 := by
  rw [unitOn, levelOf_withLevel]

/-- A trap vector is even (60_exceptions.md R183). -/
theorem getLsbD_trapVector_zero (c : Config) (k : TrapKind) : (trapVector c k).getLsbD 0 = false := by
  unfold trapVector
  change BitVec.getLsbD (w := 31 + 1) _ _ = _
  simp only [BitVec.getLsbD_append]
  simp

end Sys2Proof.Machine
end

