-- ==== Sys2Proof/Laws/Ops.lean ====
section
/-! SUPPORT. For each shared operation, once, everything it can do. -/

namespace Sys2Proof.Machine

open Sys2Proof

/-! ### Sequences -/

@[simp] theorem andThen_of_ok {α β : Type} (a : α) (w : Work) (k : α → Work → Result β) :
    andThen (.ok a w) k = k a w := rfl

@[simp] theorem andThen_of_trap {α β : Type} (t : Trap) (w : Work) (k : α → Work → Result β) :
    andThen (.trap t w) k = .trap t w := rfl

theorem ok_eq_ok {α : Type} {a b : α} {w w' : Work} :
    (Result.ok a w = Result.ok b w') ↔ b = a ∧ w' = w := by
  rw [Result.ok.injEq, @eq_comm _ a, @eq_comm _ w]

theorem done_eq_ok {u : Unit} {w w' : Work} : (Result.ok () w = Result.ok u w') ↔ w' = w := by
  rw [ok_eq_ok]; exact ⟨fun h => h.2, fun h => ⟨rfl, h⟩⟩

theorem andThen_eq_ok {α β : Type} {r : Result α} {k : α → Work → Result β} {b : β} {w' : Work} :
    andThen r k = .ok b w' ↔ ∃ a w, r = .ok a w ∧ k a w = .ok b w' := by
  cases r <;> simp

theorem andThen_eq_trap {α β : Type} {r : Result α} {k : α → Work → Result β} {t : Trap} {w' : Work} :
    andThen r k = .trap t w' ↔ r = .trap t w' ∨ ∃ a w, r = .ok a w ∧ k a w = .trap t w' := by
  cases r <;> simp

@[simp] theorem finish_ok (c : Config) (s : State) (u : Unit) (w : Work) : finish c s (.ok u w) = w.st := rfl

@[simp] theorem finish_trap (c : Config) (s : State) (t : Trap) (w : Work) :
    finish c s (.trap t w) = abandon c t (instrStart s) s w := rfl

/-- The meaning of every instruction: its work, finished. -/
theorem execIn_eq_finish (c : Config) (i : Instr) (s : State) :
    execIn c i s = .next (finish c s (workIn c i ⟨s, 0⟩)) := by
  cases i <;> rfl

/-- The machine's meanings are those under its own configuration. -/
theorem exec_eq_execIn (i : Instr) (s : State) : exec i s = execIn Config.platform i s := by
  cases i <;> rfl

/-- The machine's step is the step under its own configuration. -/
theorem step_eq_stepIn (s : State) : step s = stepIn Config.platform s := by
  have : exec = execIn Config.platform := by funext i s; exact exec_eq_execIn i s
  unfold step stepIn; rw [this]

/-- A claim about the meanings under every configuration is one about the machine. -/
theorem everyMachine_of {claim : Config → (Instr → State → Host.Outcome State Fault Refusal) → Prop}
    (h : ∀ c, claim c (execIn c)) : everyMachine claim := by
  refine ⟨h, ?_⟩
  have : exec = execIn Config.platform := by funext i s; exact exec_eq_execIn i s
  rw [this]; exact h _

/-- A claim about steps under every configuration is one about the machine. -/
theorem everyStep_of {claim : Config → (State → Host.Outcome State Fault Refusal) → Prop}
    (h : ∀ c, claim c (stepIn c)) : everyStep claim := by
  refine ⟨h, ?_⟩
  have : step = stepIn Config.platform := by funext s; exact step_eq_stepIn s
  rw [this]; exact h _

/-! ### General registers -/

theorem readReg_ne_zero (s : State) (n : Nibble) (z : ZeroReading) (h : n ≠ 0#4) :
    readReg s n z = readStored s n := by simp [readReg, h]

theorem writeReg_ne_zero (s : State) (n : Nibble) (v : Word) (h : n ≠ 0#4) :
    writeReg s n v = writeStored s n v := by simp [writeReg, h]

@[simp] theorem writeReg_zero (s : State) (v : Word) : writeReg s 0#4 v = s := rfl

theorem nibble_index_lt (n : Nibble) : n.toNat - 1 < 15 := by have := n.isLt; omega

theorem nibble_index_ne {m n : Nibble} (hm : m ≠ 0#4) (hn : n ≠ 0#4) (h : m ≠ n) :
    m.toNat - 1 ≠ n.toNat - 1 := by
  intro he
  have h0 : m.toNat ≠ 0 := fun h => hm (BitVec.eq_of_toNat_eq h)
  have h1 : n.toNat ≠ 0 := fun h => hn (BitVec.eq_of_toNat_eq h)
  exact h (BitVec.eq_of_toNat_eq (by omega))

/-- A general register written is the one read. -/
@[simp] theorem readStored_writeStored_same (s : State) (n : Nibble) (v : Word) :
    readStored (writeStored s n v) n = v := by
  simp [readStored, nibble_index_lt]

/-- A general register written leaves the others. -/
theorem readStored_writeStored_ne (s : State) (m n : Nibble) (v : Word) (hm : m ≠ 0#4) (hn : n ≠ 0#4)
    (h : m ≠ n) : readStored (writeStored s n v) m = readStored s m := by
  have := nibble_index_ne hm hn h
  simp [readStored, Ne.symm this]

/-! ### Memory operations -/

/-- An access that succeeds is translated, reaches a real word, and counts once (20_memory.md R73). -/
theorem access_eq_ok {c : Config} {kind : AccessKind} {va pa : Word} {w w' : Work} :
    access c kind va w = .ok pa w' ↔
      translate c kind va w.st = .ok pa ∧ c.real (wordOf pa) = true ∧ w' = countOp w := by
  unfold access
  split
  · next t h => simp [h]
  · next p h =>
    split
    · next hr => simp only [h, Result.ok.injEq, Except.ok.injEq]; constructor
                 · rintro ⟨rfl, rfl⟩; exact ⟨rfl, hr, rfl⟩
                 · rintro ⟨rfl, -, rfl⟩; exact ⟨rfl, rfl⟩
    · next hr =>
      constructor
      · intro h'; cases h'
      · rintro ⟨h1, h2, -⟩; rw [h] at h1; cases h1; exact absurd h2 hr

/-- An access that traps does so in the translation or for want of a real word. -/
theorem access_eq_trap {c : Config} {kind : AccessKind} {va : Word} {w w' : Work} {t : Trap} :
    access c kind va w = .trap t w' ↔
      w' = countFaulting c w ∧
        (translate c kind va w.st = .error t ∨
          ∃ pa, translate c kind va w.st = .ok pa ∧ c.real (wordOf pa) = false ∧
            t = .bus (if c.busTmaVirtual then va else pa) (busCause c .nonexistent)) := by
  unfold access
  split
  · next t' h =>
    simp only [h, Result.trap.injEq, Except.error.injEq, reduceCtorEq, false_and, exists_false, or_false]
    exact ⟨fun ⟨a, b⟩ => ⟨b.symm, a⟩, fun ⟨a, b⟩ => ⟨b, a.symm⟩⟩
  · next p h =>
    split
    · next hr =>
      simp only [reduceCtorEq, false_iff, not_and, not_or, h, not_false_eq_true, true_and, not_exists]
      rintro - pa h1 h2
      cases h1; simp [hr] at h2
    · next hr =>
      simp only [h, Result.trap.injEq, reduceCtorEq, false_or, Except.ok.injEq]
      constructor
      · rintro ⟨rfl, rfl⟩; exact ⟨rfl, p, rfl, by simpa using hr, rfl⟩
      · rintro ⟨rfl, pa, rfl, -, rfl⟩; exact ⟨rfl, rfl⟩

theorem memRead_eq_ok {c : Config} {kind : AccessKind} {va v : Word} {n : Width} {w w' : Work} :
    memRead c kind va n w = .ok v w' ↔
      ∃ pa, translate c kind va w.st = .ok pa ∧ c.real (wordOf pa) = true ∧ w' = countOp w ∧
        v = loadBytes w.st.mem pa n := by
  simp only [memRead, andThen_eq_ok, access_eq_ok, Result.ok.injEq]
  constructor
  · rintro ⟨pa, _, ⟨h1, h2, rfl⟩, rfl, rfl⟩; exact ⟨pa, h1, h2, rfl, rfl⟩
  · rintro ⟨pa, h1, h2, rfl, rfl⟩; exact ⟨pa, _, ⟨h1, h2, rfl⟩, rfl, rfl⟩

theorem memRead_eq_trap {c : Config} {kind : AccessKind} {va : Word} {n : Width} {w w' : Work} {t : Trap} :
    memRead c kind va n w = .trap t w' ↔ access c kind va w = .trap t w' := by
  simp [memRead, andThen_eq_trap]

theorem memWrite_eq_ok {c : Config} {va v : Word} {n : Width} {w w' : Work} {u : Unit} :
    memWrite c va n v w = .ok u w' ↔
      ∃ pa, translate c .store va w.st = .ok pa ∧ c.real (wordOf pa) = true ∧
        w' = updated (countOp w) fun s => { s with mem := storeBytes s.mem pa n v } := by
  simp only [memWrite, andThen_eq_ok, access_eq_ok, done_eq_ok]
  constructor
  · rintro ⟨pa, _, ⟨h1, h2, rfl⟩, rfl⟩; exact ⟨pa, h1, h2, rfl⟩
  · rintro ⟨pa, h1, h2, rfl⟩; exact ⟨pa, _, ⟨h1, h2, rfl⟩, rfl⟩

theorem memWrite_eq_trap {c : Config} {va v : Word} {n : Width} {w w' : Work} {t : Trap} :
    memWrite c va n v w = .trap t w' ↔ access c .store va w = .trap t w' := by
  simp [memWrite, andThen_eq_trap]

/-- A trapped memory operation leaves all but the count of it. -/
theorem countFaulting_cases (c : Config) (w : Work) :
    countFaulting c w = w ∨ countFaulting c w = countOp w := by
  unfold countFaulting; split <;> simp

/-! ### The program counter -/

theorem setPc_even (c : Config) {t : Word} (h : t.getLsbD 0 = false) (w : Work) :
    setPc c t w = .ok () (updated w fun s => { s with pc := t }) := by
  rw [setPc, h]; rfl

theorem setPc_odd (c : Config) {t : Word} (h : t.getLsbD 0 = true) (w : Work) :
    setPc c t w = .trap (.bus t 1#2) w := by
  rw [setPc, h]; rfl

theorem setPc_eq_ok {c : Config} {t : Word} {w w' : Work} {u : Unit} :
    setPc c t w = .ok u w' ↔ t.getLsbD 0 = false ∧ w' = updated w fun s => { s with pc := t } := by
  cases h : t.getLsbD 0
  · rw [setPc_even c h]; simp only [Result.ok.injEq, true_and]; exact eq_comm
  · rw [setPc_odd c h]; simp only [reduceCtorEq, false_and]

theorem setPc_eq_trap {c : Config} {t : Word} {w w' : Work} {tr : Trap} :
    setPc c t w = .trap tr w' ↔ t.getLsbD 0 = true ∧ tr = .bus t 1#2 ∧ w' = w := by
  cases h : t.getLsbD 0
  · rw [setPc_even c h]; simp only [reduceCtorEq, false_and]
  · rw [setPc_odd c h]; simp only [Result.trap.injEq, true_and, @eq_comm _ tr, @eq_comm _ w']

theorem nextHalfword_eq_ok {c : Config} {h : Halfword} {w w' : Work} :
    nextHalfword c w = .ok h w' ↔
      ∃ pa, translate c .fetch w.st.pc w.st = .ok pa ∧ c.real (wordOf pa) = true ∧
        w' = updated (countOp w) advancePc ∧ h = (loadBytes w.st.mem pa .half).extractLsb' 0 16 := by
  simp only [nextHalfword, andThen_eq_ok, memRead_eq_ok, Result.ok.injEq]
  constructor
  · rintro ⟨v, _, ⟨pa, h1, h2, rfl, rfl⟩, rfl, rfl⟩; exact ⟨pa, h1, h2, rfl, rfl⟩
  · rintro ⟨pa, h1, h2, rfl, rfl⟩; exact ⟨_, _, ⟨pa, h1, h2, rfl, rfl⟩, rfl, rfl⟩

theorem nextHalfword_eq_trap {c : Config} {w w' : Work} {t : Trap} :
    nextHalfword c w = .trap t w' ↔ access c .fetch w.st.pc w = .trap t w' := by
  simp [nextHalfword, andThen_eq_trap, memRead_eq_trap]

/-- Further halfwords whose contents are not used change the pc and `cyc` only. -/
theorem skipHalfwords_ok {c : Config} {n : Nat} {w w' : Work} {u : Unit}
    (h : skipHalfwords c n w = .ok u w') :
    w' = ⟨{ w.st with pc := w.st.pc + BitVec.ofNat 32 (2 * n), cyc := w.st.cyc + BitVec.ofNat 32 n },
      w.ops + n⟩ := by
  induction n generalizing w with
  | zero => simp only [skipHalfwords, Result.ok.injEq, true_and] at h; subst h; simp
  | succ n ih =>
    obtain ⟨_, w1, h1, h2⟩ := andThen_eq_ok.1 h
    obtain ⟨_, -, -, rfl, -⟩ := nextHalfword_eq_ok.1 h1
    rw [ih h2]
    have hp : w.st.pc + BitVec.ofNat 32 (2 * (n + 1)) = w.st.pc + 2#32 + BitVec.ofNat 32 (2 * n) := by
      rw [show 2 * (n + 1) = 2 + 2 * n by omega, BitVec.ofNat_add, ← BitVec.add_assoc]
    have hc : w.st.cyc + BitVec.ofNat 32 (n + 1) = w.st.cyc + 1#32 + BitVec.ofNat 32 n := by
      rw [show n + 1 = 1 + n by omega, BitVec.ofNat_add, ← BitVec.add_assoc]
    rw [hp, hc, show w.ops + (n + 1) = w.ops + 1 + n by omega]
    simp only [updated_st, countOp_st, advancePc, updated_ops, countOp_ops]

/-! ### Privilege and the special registers -/

theorem guardPrivilege_eq_ok {α : Type} {c : Config} {w w' : Work} {r : Result α} {a : α} :
    guardPrivilege c w r = .ok a w' ↔ inPrivileged c w.st = true ∧ r = .ok a w' := by
  unfold guardPrivilege; split <;> simp_all

/-- A read of a special register changes nothing but the count of free values drawn. -/
theorem readSpecial_ok_state {c : Config} {r : SpecialReg} {v : Word} {w w' : Work}
    (h : readSpecial c r w = .ok v w') :
    w'.ops = w.ops ∧ (w' = w ∨ w'.st = { w.st with draws := w.st.draws + 1 }) := by
  cases r <;> simp only [readSpecial, guardPrivilege_eq_ok, Result.ok.injEq] at h
  · obtain ⟨-, rfl⟩ := h; exact ⟨rfl, .inr rfl⟩
  · obtain ⟨-, -, rfl⟩ := h; exact ⟨rfl, .inl rfl⟩
  · obtain ⟨-, -, rfl⟩ := h; exact ⟨rfl, .inl rfl⟩
  · obtain ⟨-, -, rfl⟩ := h; exact ⟨rfl, .inl rfl⟩
  · obtain ⟨-, -, rfl⟩ := h; exact ⟨rfl, .inl rfl⟩
  · obtain ⟨-, -, rfl⟩ := h
    refine ⟨rfl, .inr ?_⟩
    simp only [readMmuData]; split <;> rfl

theorem writePsw_eq_ok {c : Config} {v : Word} {w w' : Work} {u : Unit} :
    writePsw c v w = .ok u w' ↔
      (inPrivileged c w.st = true ∨ v.extractLsb' 24 8 = w.st.psw.extractLsb' 24 8) ∧
        w' = updated w fun s => { s with psw := v &&& pswMask c } := by
  unfold writePsw
  split
  · next h =>
    simp only [Bool.or_eq_true, beq_iff_eq] at h
    simp only [Result.ok.injEq, true_and, h]
    exact eq_comm
  · next h => simp only [Bool.or_eq_true, beq_iff_eq] at h; simp [h]

/-- A write of a special register: what it needs, and all it does (42_special_register_access.md R151 to R158). -/
theorem writeSpecial_eq_ok {c : Config} {r : SpecialReg} {v : Word} {w w' : Work} {u : Unit} :
    writeSpecial c r v w = .ok u w' ↔
      (inPrivileged c w.st = true ∨ r = .psw ∧ v.extractLsb' 24 8 = w.st.psw.extractLsb' 24 8) ∧
        w' = updated w (match r with
          | .psw => fun s => { s with psw := v &&& pswMask c }
          | .tpc => fun s => { s with tpc := v }
          | .tma => fun s => { s with tma := v }
          | .tsv => fun s => { s with tsv := v }
          | .cyc => fun s => { s with cyc := v }
          | .mmudata => writeMmuData c v) := by
  cases r <;> simp only [writeSpecial, writePsw_eq_ok, guardPrivilege_eq_ok, done_eq_ok, true_and,
    reduceCtorEq, false_and, or_false]

/-- A return from a trap: what it needs, and all it does (60_exceptions.md R185; log 18). -/
theorem trapReturn_eq_ok {c : Config} {f : Nibble → Nibble} {w w' : Work} {u : Unit} :
    trapReturn c f w = .ok u w' ↔
      inPrivileged c w.st = true ∧ w.st.tpc.getLsbD 0 = false ∧
        w' = updated w fun s => { s with
          pc := s.tpc
          psw := withLevel (withPrior s.psw (f (priorOf s.psw))) (priorOf s.psw) } := by
  simp only [trapReturn, guardPrivilege_eq_ok, andThen_eq_ok, setPc_eq_ok, done_eq_ok]
  constructor
  · rintro ⟨hp, _, _, ⟨h, rfl⟩, rfl⟩; exact ⟨hp, h, rfl⟩
  · rintro ⟨hp, h, rfl⟩; exact ⟨hp, (), _, ⟨h, rfl⟩, rfl⟩

/-- A return from a trap in code that is not privileged is the privilege trap. -/
theorem trapReturn_unprivileged {c : Config} (f : Nibble → Nibble) {w : Work}
    (h : inPrivileged c w.st = false) : trapReturn c f w = .trap .privilege w := by
  rw [trapReturn, guardPrivilege, h]; rfl

/-! ### The mapping registers -/

/-- A replacement keeps some of the mapping registers, in their order. -/
theorem evict_sublist (c : Config) (pick : Nat) (rest : List MapEntry) :
    (evict c pick rest).Sublist rest := by
  unfold evict; split <;> exact List.eraseIdx_sublist ..

/-- A replacement loses one mapping register at most. -/
theorem length_evict_ge (c : Config) (pick : Nat) (rest : List MapEntry) :
    rest.length ≤ (evict c pick rest).length + 1 := by
  unfold evict; split <;> rw [List.length_eraseIdx] <;> split <;> omega

/-- A replacement makes room. -/
theorem length_evict_lt (c : Config) (pick : Nat) (rest : List MapEntry) (h : rest.length ≤ nmap c) :
    (evict c pick rest).length < nmap c := by
  have hn : 0 < nmap c := Nat.succ_pos _
  unfold evict
  split
  · next hl => exact lt_of_le_of_lt (List.eraseIdx_sublist ..).length_le hl
  · next hl =>
    have : pick % rest.length < rest.length := Nat.mod_lt _ (by omega)
    rw [List.length_eraseIdx, if_pos this]; omega

/-- Every write of MMUDATA leaves a proper set of mapping registers (10_state.md R51). -/
theorem mmuOk_writeMmuData (c : Config) (d : Word) (s : State) (h : MmuOk c s.mmu) :
    MmuOk c (writeMmuData c d s).mmu := by
  unfold writeMmuData
  split
  · refine ⟨by simpa using h.bounded, ?_⟩
    have : (s.mmu.map (andRights d)).map (fun e => e.vpn) = s.mmu.map fun e => e.vpn := by
      simp [andRights, Function.comp_def]
    simpa only [this] using h.distinct
  · set rest := s.mmu.filter fun e => e.vpn != pageOf s.tma with hrest
    have hsub := (evict_sublist c (c.free s.draws).toNat rest)
    have hrl : rest.length ≤ nmap c := (List.length_filter_le ..).trans h.bounded
    refine ⟨?_, ?_⟩
    · have := length_evict_lt c (c.free s.draws).toNat rest hrl
      simpa [drawWord] using this
    · have hd : (rest.map fun e => e.vpn).Nodup := h.distinct.sublist (List.filter_sublist.map _)
      simp only [drawWord, List.map_cons, List.nodup_cons]
      refine ⟨fun hm => ?_, hd.sublist (hsub.map _)⟩
      obtain ⟨e, he, hv⟩ := List.mem_map.1 hm
      have := hsub.subset he
      simp only [hrest, List.mem_filter, bne_iff_ne] at this
      exact this.2 hv

/-- A write of MMUDATA touches the mapping registers and draws, no more. -/
theorem writeMmuData_frame (c : Config) (d : Word) (s : State) :
    writeMmuData c d s =
      { s with mmu := (writeMmuData c d s).mmu, draws := (writeMmuData c d s).draws } := by
  unfold writeMmuData; split <;> rfl

/-! ### The coprocessors -/

/-- An accessible coprocessor is a present one. -/
theorem present_of_coAccessible {c : Config} {costat : Word} (h : coAccessible c costat = true) :
    present c (selectOf costat) = true := by
  simp only [coAccessible, Bool.and_eq_true] at h; exact h.1

/-- COGET and COSET reach a coprocessor exactly where the selected one is active (10_state.md R34). -/
theorem coAccessible_iff (c : Config) (costat : Word) :
    coAccessible c costat = true ↔ coStateOf c costat (selectOf costat) = .active := by
  unfold coAccessible coStateOf
  cases present c (selectOf costat) <;> cases enabledIn costat (selectOf costat) <;> simp

theorem restrictUnit_idem (c : Config) (n : BitVec 3) (u : CoUnit) :
    restrictUnit c n (restrictUnit c n u) = restrictUnit c n u := by
  unfold restrictUnit
  simp only [CoUnit.mk.injEq, and_true]
  refine Vector.ext fun i hi => ?_
  simp only [Vector.getElem_ofFn, Fin.getElem_fin]
  split <;> rfl

/-- COGET of register 0 reads COSTAT whatever the coprocessors are (41_coprocessor.md R142). -/
theorem coGetValue_zero (c : Config) (w : Work) :
    coGetValue c 0#4 w = .ok (readCostat c w.st).1 { w with st := (readCostat c w.st).2 } := rfl

/-- COGET of another register reads the active coprocessor, or traps (41 R140, R143). -/
theorem coGetValue_ne_zero (c : Config) {k : Nibble} (hk : k ≠ 0#4) (w : Work) :
    coGetValue c k w =
      if coAccessible c w.st.costat then
        .ok (c.coRead (selectOf w.st.costat) k (coopOf w.st.costat) (unitAt w.st (selectOf w.st.costat))).1
          (updated w (setUnit c (selectOf w.st.costat)
            (c.coRead (selectOf w.st.costat) k (coopOf w.st.costat)
              (unitAt w.st (selectOf w.st.costat))).2))
      else .trap .coprocessor w := by
  rw [coGetValue, if_neg hk]

/-- COSET of register 0 writes COSTAT whatever the coprocessors are (41 R142). -/
theorem coSetValue_zero (c : Config) (v : Word) (w : Work) :
    coSetValue c 0#4 v w = .ok () (updated w (writeCostat c v)) := rfl

/-- COSET of another register writes the active coprocessor, or traps (41 R141, R143). -/
theorem coSetValue_ne_zero (c : Config) {k : Nibble} (hk : k ≠ 0#4) (v : Word) (w : Work) :
    coSetValue c k v w =
      if coAccessible c w.st.costat then
        .ok () (updated w (setUnit c (selectOf w.st.costat)
          (c.coWrite (selectOf w.st.costat) k (coopOf w.st.costat) v
            (unitAt w.st (selectOf w.st.costat)))))
      else .trap .coprocessor w := by
  rw [coSetValue, if_neg hk]

theorem coGetValue_eq_ok {c : Config} {k : Nibble} {v : Word} {w w' : Work} :
    coGetValue c k w = .ok v w' ↔
      (k = 0#4 ∧ v = (readCostat c w.st).1 ∧ w' = { w with st := (readCostat c w.st).2 }) ∨
      (k ≠ 0#4 ∧ coAccessible c w.st.costat = true ∧
        let sel := selectOf w.st.costat
        let r := c.coRead sel k (coopOf w.st.costat) (unitAt w.st sel)
        v = r.1 ∧ w' = updated w (setUnit c sel r.2)) := by
  by_cases hk : k = 0#4
  · simp only [hk, coGetValue_zero, ok_eq_ok, true_and, ne_eq, not_true_eq_false, false_and, or_false]
  · rw [coGetValue_ne_zero c hk]
    split
    · next ha =>
      simp only [hk, ha, ok_eq_ok, true_and, ne_eq, not_false_eq_true, false_and, false_or]
    · next ha => simp [hk, ha]

theorem coSetValue_eq_ok {c : Config} {k : Nibble} {v : Word} {w w' : Work} {u : Unit} :
    coSetValue c k v w = .ok u w' ↔
      (k = 0#4 ∧ w' = updated w (writeCostat c v)) ∨
      (k ≠ 0#4 ∧ coAccessible c w.st.costat = true ∧
        w' = updated w (setUnit c (selectOf w.st.costat)
          (c.coWrite (selectOf w.st.costat) k (coopOf w.st.costat) v
            (unitAt w.st (selectOf w.st.costat))))) := by
  by_cases hk : k = 0#4
  · simp only [hk, coSetValue_zero, done_eq_ok, true_and, ne_eq, not_true_eq_false, false_and, or_false]
  · rw [coSetValue_ne_zero c hk]
    split
    · next ha =>
      simp only [hk, ha, done_eq_ok, true_and, ne_eq, not_false_eq_true, false_and, false_or]
    · next ha => simp [hk, ha]

theorem writeDst_eq_ok {c : Config} {z : ZeroDst} {n : Nibble} {v : Word} {w w' : Work} {u : Unit} :
    writeDst c z n v w = .ok u w' ↔
      (n = 0#4 ∧ z = .discard ∧ w' = w) ∨
      (n = 0#4 ∧ z = .jump ∧ v.getLsbD 0 = false ∧ w' = updated w fun s => { s with pc := v }) ∨
      (n ≠ 0#4 ∧ w' = updated w fun s => writeReg s n v) := by
  unfold writeDst
  by_cases hn : n = 0#4
  · rw [if_pos hn]
    cases z
    · simp only [done_eq_ok, hn, true_and, reduceCtorEq, false_and, ne_eq, not_true_eq_false, or_false]
    · simp only [setPc_eq_ok, hn, true_and, reduceCtorEq, false_and, ne_eq, not_true_eq_false, or_false,
        false_or]
  · rw [if_neg hn]
    simp only [done_eq_ok, hn, false_and, ne_eq, not_false_eq_true, true_and, false_or]

/-- COGET that completes, act by act (41_coprocessor.md R140). -/
theorem cogetWork_eq_ok {c : Config} {dst k : Nibble} {w w' : Work} {u : Unit} :
    cogetWork c dst k w = .ok u w' ↔
      coImplemented c = true ∧ ∃ w1 v w2 w3, skipHalfwords c (coFurtherOf c w.st) w = .ok () w1 ∧
        coGetValue c k w1 = .ok v w2 ∧ writeDst c c.cogetZero dst v w2 = .ok () w3 ∧
        w' = updated w3 (anyCC c) := by
  unfold cogetWork ifImplemented
  split
  · next h =>
    simp only [h, true_and, endCoInstr, andThen_eq_ok, done_eq_ok]
    constructor
    · rintro ⟨_, w1, h1, v, w2, h2, _, w3, h3, rfl⟩; exact ⟨w1, v, w2, w3, h1, h2, h3, rfl⟩
    · rintro ⟨w1, v, w2, w3, h1, h2, h3, rfl⟩; exact ⟨(), w1, h1, v, w2, h2, (), w3, h3, rfl⟩
  · next h => simp [h]

/-- COSET that completes, act by act (41_coprocessor.md R141). -/
theorem cosetWork_eq_ok {c : Config} {src k : Nibble} {w w' : Work} {u : Unit} :
    cosetWork c src k w = .ok u w' ↔
      coImplemented c = true ∧ ∃ w1 w2, skipHalfwords c (coFurtherOf c w.st) w = .ok () w1 ∧
        coSetValue c k (readReg w1.st src c.cosetZero) w1 = .ok () w2 ∧ w' = updated w2 (anyCC c) := by
  unfold cosetWork ifImplemented
  split
  · next h =>
    simp only [h, true_and, endCoInstr, andThen_eq_ok, done_eq_ok]
    constructor
    · rintro ⟨_, w1, h1, _, w2, h2, rfl⟩; exact ⟨w1, w2, h1, h2, rfl⟩
    · rintro ⟨w1, w2, h1, h2, rfl⟩; exact ⟨(), w1, h1, (), w2, h2, rfl⟩
  · next h => simp [h]

/-! ### The state of a coprocessor -/

theorem co_index_lt (n : BitVec 3) : n.toNat - 1 < 7 := by have := n.isLt; omega

theorem co_index_ne {m n : BitVec 3} (hm : m ≠ 0#3) (hn : n ≠ 0#3) (h : m ≠ n) :
    m.toNat - 1 ≠ n.toNat - 1 := by
  intro he
  have h0 : m.toNat ≠ 0 := fun h => hm (BitVec.eq_of_toNat_eq h)
  have h1 : n.toNat ≠ 0 := fun h => hn (BitVec.eq_of_toNat_eq h)
  exact h (BitVec.eq_of_toNat_eq (by omega))

@[simp] theorem unitAt_setUnit_same (c : Config) (n : BitVec 3) (u : CoUnit) (s : State) :
    unitAt (setUnit c n u s) n = restrictUnit c n u := by
  simp [unitAt, setUnit, co_index_lt]

theorem unitAt_setUnit_ne (c : Config) {m n : BitVec 3} (u : CoUnit) (s : State) (hm : m ≠ 0#3)
    (hn : n ≠ 0#3) (h : m ≠ n) : unitAt (setUnit c n u s) m = unitAt s m := by
  have := co_index_ne hm hn h
  simp [unitAt, setUnit, Ne.symm this]

theorem unitAt_eq (s : State) (n : BitVec 3) : unitAt s n = s.co[n.toNat - 1]'(co_index_lt n) := by
  simp [unitAt, co_index_lt]

theorem coNumberAt_index {n : BitVec 3} (hn : n ≠ 0#3) :
    coNumberAt ⟨n.toNat - 1, co_index_lt n⟩ = n := by
  have h1 : n.toNat ≠ 0 := fun h => hn (BitVec.eq_of_toNat_eq h)
  apply BitVec.eq_of_toNat_eq
  have := n.isLt
  simp [coNumberAt]; omega

theorem coNumberAt_of_index {n : BitVec 3} (hn : n ≠ 0#3) (i : Fin 7) (h : n.toNat - 1 = i.val) :
    coNumberAt i = n := by
  rw [← coNumberAt_index hn]; congr 1; ext; exact h.symm

/-- What a write of COSTAT makes of coprocessor n (41_coprocessor.md R146). -/
theorem unitAt_writeCostat (c : Config) (v : Word) (s : State) {n : BitVec 3} (hn : n ≠ 0#3) :
    unitAt (writeCostat c v s) n =
      if present c n = true ∧ enabledIn s.costat n ≠ enabledIn v n then
        restrictUnit c n (c.coAny (s.draws + (n.toNat - 1)))
      else unitAt s n := by
  rw [unitAt_eq, unitAt_eq]
  simp only [writeCostat, Vector.getElem_ofFn, coNumberAt_index hn, Fin.getElem_fin,
    Bool.and_eq_true, bne_iff_ne]

/-- Each field of COSTAT survives the loss of the unused bits. -/
theorem costat_fields (v : Word) :
    coopOf (v &&& costatMask) = coopOf v ∧ selectOf (v &&& costatMask) = selectOf v ∧
      ∀ n, n ≠ 0#3 → enabledIn (v &&& costatMask) n = enabledIn v n := by
  refine ⟨?_, ?_, ?_⟩
  · apply BitVec.eq_of_getLsbD_eq; intro i hi
    simp only [coopOf, costatMask, BitVec.getLsbD_extractLsb', BitVec.getLsbD_and]
    interval_cases i <;> simp
  · apply BitVec.eq_of_getLsbD_eq; intro i hi
    simp only [selectOf, costatMask, BitVec.getLsbD_extractLsb', BitVec.getLsbD_and]
    interval_cases i <;> simp
  · intro n hn
    unfold enabledIn
    rw [BitVec.getLsbD_and]
    have : costatMask.getLsbD n.toNat = true := by revert n; decide
    simp [this]

/-- The free condition codes after COGET and COSET, and no more. -/
theorem anyCC_frame (c : Config) (s : State) :
    anyCC c s =
      { s with psw := withCC s.psw (ccOf (anyCC c s).psw), draws := (anyCC c s).draws } := by
  simp [anyCC]

@[simp] theorem readStored_anyCC (c : Config) (s : State) (n : Nibble) :
    readStored (anyCC c s) n = readStored s n := rfl

@[simp] theorem unitAt_anyCC (c : Config) (s : State) (n : BitVec 3) :
    unitAt (anyCC c s) n = unitAt s n := rfl

/-! ### Mapping registers, looked up and shown -/

theorem lookupPage_eq_some {mmu : List MapEntry} {p : BitVec 20} {e : MapEntry}
    (h : lookupPage mmu p = some e) : e ∈ mmu ∧ e.vpn = p := by
  refine ⟨List.mem_of_find?_eq_some h, ?_⟩
  have := List.find?_some h
  simpa using this

/-- A write of MMUDATA with G = 0, as one list (20_memory.md R81). -/
theorem writeMmuData_local (c : Config) {d : Word} (s : State) (h : d.getLsbD 5 = false) :
    writeMmuData c d s =
      { s with
        draws := s.draws + 1
        mmu := wordEntry (pageOf s.tma) d ::
          evict c (c.free s.draws).toNat (s.mmu.filter fun e => e.vpn != pageOf s.tma) } := by
  rw [writeMmuData, h]; rfl

/-- A write of MMUDATA with G = 1, as one list (20_memory.md R82). -/
theorem writeMmuData_global (c : Config) {d : Word} (s : State) (h : d.getLsbD 5 = true) :
    writeMmuData c d s = { s with mmu := s.mmu.map (andRights d) } := by
  rw [writeMmuData, h]; rfl

/-- What a mapping register shows is the word it was made of. -/
theorem entryWord_wordEntry (p : BitVec 20) (d : Word) :
    entryWord (wordEntry p d) = d &&& mmuDataMask := by
  apply BitVec.eq_of_getLsbD_eq; intro i hi
  simp only [entryWord, wordEntry]
  change BitVec.getLsbD (w := 20 + 12) _ _ = _
  simp only [BitVec.getLsbD_append, BitVec.getLsbD_extractLsb', BitVec.getLsbD_and, mmuDataMask,
    BitVec.getLsbD_ofBool]
  interval_cases i <;> simp

theorem pageOf_append (p : BitVec 20) (o : BitVec 12) : pageOf (p ++ o) = p := by
  apply BitVec.eq_of_getLsbD_eq; intro i hi
  simp only [pageOf, BitVec.getLsbD_extractLsb', BitVec.getLsbD_append]
  simp [hi]

/-- A refused translation is an MMU trap of the address (20_memory.md R78). -/
theorem translate_eq_error {c : Config} {kind : AccessKind} {va : Word} {s : State} {t : Trap}
    (h : translate c kind va s = .error t) : ∃ r, t = .mmu va (c.mmuCause r) := by
  unfold translate at h
  split at h
  · split at h
    · cases h; exact ⟨_, rfl⟩
    · split at h
      · split at h
        · cases h
        · cases h; exact ⟨_, rfl⟩
      · cases h; exact ⟨_, rfl⟩
  · cases h

/-! ### The fetch -/

/-- A fetch that succeeds (40_instruction_cycle.md R121, R122). -/
theorem fetch_eq_ok {c : Config} {s : State} {pa : Word} (h1 : translate c .fetch s.pc s = .ok pa)
    (h2 : c.real (wordOf pa) = true) :
    fetch c s =
      .ok (readByte s.mem (accessBase .half pa + 1) ++ readByte s.mem (accessBase .half pa))
        ⟨{ s with
          pc := s.pc + 2#32
          cyc := s.cyc + 1#32
          ir := readByte s.mem (accessBase .half pa + 1) ++ readByte s.mem (accessBase .half pa) }, 1⟩ := by
  have : nextHalfword c ⟨s, 0⟩ = .ok _ _ := nextHalfword_eq_ok.2 ⟨pa, h1, h2, rfl, rfl⟩
  rw [fetch, this, andThen_of_ok, half_loadBytes]; rfl

/-- A fetch that traps. -/
theorem fetch_eq_trap {c : Config} {s : State} {t : Trap} {w : Work}
    (h : access c .fetch s.pc ⟨s, 0⟩ = .trap t w) : fetch c s = .trap t w := by
  rw [fetch, nextHalfword_eq_trap.2 h, andThen_of_trap]

end Sys2Proof.Machine
end

