-- ==== Sys2Proof/Laws/PerInstr.lean ====
section
/-! SUPPORT. What is shown of every instruction as syntax, one lemma per constructor. -/

namespace Sys2Proof.Laws.EncodeWellFormed

open Sys2Proof

/-- The encoder has a halfword for an instruction exactly where the instruction is well formed, under every opcode
map. -/
def Statement (i : Instr) : Prop := ∀ c : Config, (encode c i).isSome = wellFormed c i

theorem anyInstructionHalfword (f : IrFields) : Statement (.anyInstructionHalfword f) := by
  intro c
  simp only [encode, wellFormed]
  split <;> simp_all

theorem coget (dst k : Nibble) : Statement (.coget dst k) := by
  intro c
  simp only [encode, wellFormed, Option.isSome_map, isSome_findFields]

theorem coset (src k : Nibble) : Statement (.coset src k) := by
  intro c
  simp only [encode, wellFormed, Option.isSome_map, isSome_findFields]

end Sys2Proof.Laws.EncodeWellFormed
end

