-- ==== Sys2Proof/Laws/Reset.lean ====
section
/-! SUPPORT. Reset: each constraint that `resetWith` puts on the open reset values holds of what it gives, and changes
no reset values that meet it already. -/

namespace Sys2Proof.Machine

open Sys2Proof

/-! ### The mapping registers -/

theorem pairwise_vpn_iff (mmu : List MapEntry) :
    (mmu.map fun e => e.vpn).Nodup ↔ mmu.Pairwise fun a b => a.vpn ≠ b.vpn := by
  rw [List.Nodup, List.pairwise_map]

/-- What reset leaves in the mapping registers is a proper set of them (70_reset_and_hazards.md R201). -/
theorem mmuOk_resetMmu (c : Config) (mmu : List MapEntry) : MmuOk c (resetMmu c mmu) where
  bounded := List.length_take_le ..
  distinct := (pairwise_vpn_iff _).2 ((List.pairwise_pwFilter _).sublist (List.take_sublist ..))

/-- Every proper set of mapping registers can be a reset value. -/
theorem resetMmu_eq_self {c : Config} {mmu : List MapEntry} (h : MmuOk c mmu) : resetMmu c mmu = mmu := by
  rw [resetMmu, List.pwFilter_eq_self.2 ((pairwise_vpn_iff _).1 h.distinct), List.take_of_length_le h.bounded]

/-! ### Memory -/

/-- A byte below all that is listed comes first. -/
theorem writeByte_cons (m : Memory) (a : Nat) (v : Byte) (h : ∀ x ∈ m, a < x.1) (hv : v ≠ unlistedByte) :
    writeByte m a v = (a, v) :: m := by
  have hf : m.filter (fun x => x.1 != a) = m :=
    List.filter_eq_self.2 fun x hx => bne_iff_ne.2 (h x hx).ne'
  rw [writeByte, hf, if_neg hv]
  cases m with
  | nil => rfl
  | cons x m => rw [insertCell, if_pos (h x (List.mem_cons_self ..))]

/-- The memory of a launch has its canonical form. -/
theorem wf_resetMemory (c : Config) (image : List (Nat × Byte)) : Memory.wf (resetMemory c image) := by
  induction image with
  | nil => exact ⟨.nil, nofun⟩
  | cons x l ih =>
    simp only [resetMemory, List.foldr_cons] at ih ⊢
    split
    · next h => exact wf_writeByte _ _ _ ih (by simpa using (Bool.and_eq_true_iff.1 h).1)
    · exact ih

/-- The memory of a launch lists no byte of a word that does not exist (10_state.md R55). -/
theorem real_resetMemory (c : Config) (image : List (Nat × Byte)) :
    ∀ x ∈ resetMemory c image, c.real (BitVec.ofNat 30 (x.1 / 4)) = true := by
  induction image with
  | nil => nofun
  | cons y l ih =>
    simp only [resetMemory, List.foldr_cons] at ih ⊢
    split
    · next h =>
      intro x hx
      rcases mem_writeByte _ _ _ _ hx with rfl | hx
      · exact (Bool.and_eq_true_iff.1 h).2
      · exact ih x hx
    · exact ih

/-- Every memory in canonical form, within what exists, can be the image of a launch. -/
theorem resetMemory_eq_self {c : Config} {m : Memory} (h : Memory.wf m)
    (hr : ∀ x ∈ m, c.real (BitVec.ofNat 30 (x.1 / 4)) = true) : resetMemory c m = m := by
  induction m with
  | nil => rfl
  | cons x m ih =>
    have hs := List.pairwise_cons.1 h.1
    have hx := h.2 x (List.mem_cons_self ..)
    have hm : resetMemory c m = m :=
      ih ⟨hs.2, fun y hy => h.2 y (List.mem_cons_of_mem _ hy)⟩ fun y hy => hr y (List.mem_cons_of_mem _ hy)
    rw [resetMemory, List.foldr_cons, if_pos (by simpa using ⟨hx.1, hr x (List.mem_cons_self ..)⟩)]
    exact (congrArg (writeByte · x.1 x.2) hm).trans (writeByte_cons m x.1 x.2 hs.1 hx.2)

end Sys2Proof.Machine
end

