-- ==== Sys2Proof/Laws/Run.lean ====
section
/-! SUPPORT. The run of an instruction's operation: one induction over programs, from which every fact about all
instruction sets follows by a look at each primitive. -/

namespace Sys2Proof.Machine

open Sys2Proof

/-- The obligations (a) to (h) of spec/40_instruction_cycle.md R123 as one principle: what every primitive keeps, every
instruction that completes keeps. `P` is kept up to the end, `Q` is what the end itself gives (a return from trap is
always an end). -/
theorem run_ok_induct {c : Config} {add : Bool} {ok : SpecialReg → Prop} {P Q : Work → Prop}
    (hdone : ∀ w : Work, P w → Q w)
    (hreg : ∀ (w : Work) (n : Nibble) (v : Word), P w → P (updated w fun s => writeReg s n v))
    (hpc : ∀ (w : Work) (t : Word), t.getLsbD 0 = false → P w → P (updated w fun s => { s with pc := t }))
    (hread : ∀ (w : Work) (pa va : Word), translate c .load va w.st = .ok pa → c.real (wordOf pa) = true → P w → P (countOp w))
    (hstore : ∀ (w : Work) (pa va : Word) (n : Width) (v : Word), translate c .store va w.st = .ok pa → c.real (wordOf pa) = true → P w →
      P (updated (countOp w) fun s => { s with mem := storeBytes s.mem pa n v }))
    (hnext : ∀ (w : Work) (pa : Word), translate c .fetch w.st.pc w.st = .ok pa → c.real (wordOf pa) = true → P w →
      P (updated (countOp w) advancePc))
    (hcc : ∀ (w : Work) (cc : Nibble), P w → P (updated w fun s => { s with psw := withCC s.psw cc }))
    (hbcd : ∀ (w : Work) (v : Word), add = true → P w → P (updated w fun s => { s with psw := withBcd c s.psw v }))
    (hdraw : ∀ w : Work, P w → P { w with st := { w.st with draws := w.st.draws + 1 } })
    (hspecial : ∀ (w : Work) (r : SpecialReg) (v : Word) (u : Unit) (w' : Work), ok r → writeSpecial c r v w = .ok u w' → P w → P w')
    (hreturn : ∀ (w : Work) (f : Nibble → Nibble), inPrivileged c w.st = true → w.st.tpc.getLsbD 0 = false → P w →
      Q (updated w fun s => { s with
        pc := s.tpc
        psw := withLevel (withPrior s.psw (f (priorOf s.psw))) (priorOf s.psw) }))
    {m : Nat} (p : Program m) : ∀ {w w' : Work} {u : Unit}, writesOnly ok p → P w → run c add p w = .ok u w' → Q w' := by
  induction p with
  | done => intro w w' u _ hp h; cases h; exact hdone _ hp
  | readReg n z k ih => intro w w' u hw hp h; exact ih _ (hw _) hp h
  | writeReg n v p ih => intro w w' u hw hp h; exact ih hw (hreg _ _ _ hp) h
  | setPc t p ih =>
    intro w w' u hw hp h
    obtain ⟨_, w1, h1, h2⟩ := andThen_eq_ok.1 h
    obtain ⟨he, rfl⟩ := setPc_eq_ok.1 h1
    exact ih hw (hpc _ _ he hp) h2
  | load va n k ih =>
    intro w w' u hw hp h
    obtain ⟨v, w1, h1, h2⟩ := andThen_eq_ok.1 h
    obtain ⟨pa, ht, hr, rfl, rfl⟩ := memRead_eq_ok.1 h1
    exact ih _ (hw _) (hread _ _ _ ht hr hp) h2
  | store va n v p ih =>
    intro w w' u hw hp h
    obtain ⟨_, w1, h1, h2⟩ := andThen_eq_ok.1 h
    obtain ⟨pa, ht, hr, rfl⟩ := memWrite_eq_ok.1 h1
    exact ih hw (hstore _ _ _ _ _ ht hr hp) h2
  | nextHalfword k ih =>
    intro w w' u hw hp h
    obtain ⟨v, w1, h1, h2⟩ := andThen_eq_ok.1 h
    obtain ⟨pa, ht, hr, rfl, rfl⟩ := nextHalfword_eq_ok.1 h1
    exact ih _ (hw _) (hnext _ _ ht hr hp) h2
  | readCC k ih => intro w w' u hw hp h; exact ih _ (hw _) hp h
  | writeCC cc p ih => intro w w' u hw hp h; exact ih hw (hcc _ _ hp) h
  | readBcd k ih => intro w w' u hw hp h; exact ih _ (hw _) hp h
  | writeBcd v p ih =>
    intro w w' u hw hp h
    cases ha : add
    · subst ha; exact ih hw hp h
    · subst ha; exact ih hw (hbcd _ _ rfl hp) h
  | readSpecial r k ih =>
    intro w w' u hw hp h
    obtain ⟨v, w1, h1, h2⟩ := andThen_eq_ok.1 h
    refine ih _ (hw _) ?_ h2
    obtain ⟨ho, rfl | hs⟩ := readSpecial_ok_state h1
    · exact hp
    · have : w1 = { w with st := { w.st with draws := w.st.draws + 1 } } := by
        cases w1; simp only at ho hs; rw [ho, hs]
      rw [this]; exact hdraw _ hp
  | writeSpecial r v p ih =>
    intro w w' u hw hp h
    obtain ⟨_, w1, h1, h2⟩ := andThen_eq_ok.1 h
    exact ih hw.2 (hspecial _ _ _ _ _ hw.1 h1 hp) h2
  | requirePrivilege p ih =>
    intro w w' u hw hp h
    exact ih hw hp (guardPrivilege_eq_ok.1 h).2
  | draw k ih => intro w w' u hw hp h; exact ih _ (hw _) (hdraw _ hp) h
  | raiseInvalid => intro w w' u _ _ h; cases h
  | trapReturn f =>
    intro w w' u _ hp h
    obtain ⟨hi, he, rfl⟩ := trapReturn_eq_ok.1 h
    exact hreturn _ _ hi he hp

/-- Every operation writes special registers only, if no register is forbidden. -/
theorem writesOnly_true {m : Nat} (p : Program m) : writesOnly (fun _ => True) p := by
  induction p <;> simp_all [writesOnly]

/-- COGET keeps what all its acts keep. -/
theorem coget_induct {c : Config} {P : Work → Prop} {dst k : Nibble} {w w' : Work} {u : Unit}
    (hskip : ∀ n w, P w → P ⟨{ w.st with pc := w.st.pc + BitVec.ofNat 32 (2 * n), cyc := w.st.cyc + BitVec.ofNat 32 n }, w.ops + n⟩)
    (hdraw : ∀ w : Work, P w → P { w with st := { w.st with draws := w.st.draws + 1 } })
    (hunit : ∀ w (n : BitVec 3) u, present c n = true → P w → P (updated w (setUnit c n u)))
    (hpc : ∀ (w : Work) (t : Word), t.getLsbD 0 = false → P w → P (updated w fun s => { s with pc := t }))
    (hreg : ∀ (w : Work) (n : Nibble) (v : Word), P w → P (updated w fun s => writeReg s n v))
    (hcc : ∀ (w : Work), P w → P (updated w (anyCC c)))
    (hp : P w) (h : cogetWork c dst k w = .ok u w') : P w' := by
  obtain ⟨-, w1, v, w2, w3, h1, h2, h3, rfl⟩ := cogetWork_eq_ok.1 h
  have p1 : P w1 := by rw [skipHalfwords_ok h1]; exact hskip _ _ hp
  have p2 : P w2 := by
    rcases coGetValue_eq_ok.1 h2 with ⟨-, -, rfl⟩ | ⟨-, ha, -, rfl⟩
    · exact hdraw _ p1
    · exact hunit _ _ _ (present_of_coAccessible ha) p1
  refine hcc _ ?_
  rcases writeDst_eq_ok.1 h3 with ⟨-, -, rfl⟩ | ⟨-, -, he, rfl⟩ | ⟨-, rfl⟩
  · exact p2
  · exact hpc _ _ he p2
  · exact hreg _ _ _ p2

/-- COSET keeps what all its acts keep. -/
theorem coset_induct {c : Config} {P : Work → Prop} {src k : Nibble} {w w' : Work} {u : Unit}
    (hskip : ∀ n w, P w → P ⟨{ w.st with pc := w.st.pc + BitVec.ofNat 32 (2 * n), cyc := w.st.cyc + BitVec.ofNat 32 n }, w.ops + n⟩)
    (hunit : ∀ w (n : BitVec 3) u, present c n = true → P w → P (updated w (setUnit c n u)))
    (hcostat : ∀ w v, P w → P (updated w (writeCostat c v)))
    (hcc : ∀ (w : Work), P w → P (updated w (anyCC c)))
    (hp : P w) (h : cosetWork c src k w = .ok u w') : P w' := by
  obtain ⟨-, w1, w2, h1, h2, rfl⟩ := cosetWork_eq_ok.1 h
  have p1 : P w1 := by rw [skipHalfwords_ok h1]; exact hskip _ _ hp
  refine hcc _ ?_
  rcases coSetValue_eq_ok.1 h2 with ⟨-, rfl⟩ | ⟨-, ha, rfl⟩
  · exact hcostat _ _ p1
  · exact hunit _ _ _ (present_of_coAccessible ha) p1

/-- One induction for every instruction. -/
theorem work_induct {c : Config} {P Q : Work → Prop} {ok : SpecialReg → Prop} (i : Instr)
    (hok : ∀ f, i = .anyInstructionHalfword f → writesOnly ok (c.operation f).program)
    (hdone : ∀ w : Work, P w → Q w)
    (hskip : ∀ n w, P w → P ⟨{ w.st with pc := w.st.pc + BitVec.ofNat 32 (2 * n), cyc := w.st.cyc + BitVec.ofNat 32 n }, w.ops + n⟩)
    (hdraw : ∀ w : Work, P w → P { w with st := { w.st with draws := w.st.draws + 1 } })
    (hunit : ∀ w (n : BitVec 3) u, present c n = true → P w → P (updated w (setUnit c n u)))
    (hcostat : ∀ w v, P w → P (updated w (writeCostat c v)))
    (hpc : ∀ (w : Work) (t : Word), t.getLsbD 0 = false → P w → P (updated w fun s => { s with pc := t }))
    (hreg : ∀ (w : Work) (n : Nibble) (v : Word), P w → P (updated w fun s => writeReg s n v))
    (hcc : ∀ (w : Work) (cc : Nibble), P w → P (updated w fun s => { s with psw := withCC s.psw cc }))
    (hread : ∀ (w : Work) (pa va : Word), translate c .load va w.st = .ok pa → c.real (wordOf pa) = true → P w → P (countOp w))
    (hstore : ∀ (w : Work) (pa va : Word) (n : Width) (v : Word), translate c .store va w.st = .ok pa → c.real (wordOf pa) = true → P w →
      P (updated (countOp w) fun s => { s with mem := storeBytes s.mem pa n v }))
    (hnext : ∀ (w : Work) (pa : Word), translate c .fetch w.st.pc w.st = .ok pa → c.real (wordOf pa) = true → P w →
      P (updated (countOp w) advancePc))
    (hbcd : ∀ (w : Work) (v : Word), (∃ f, i = .anyInstructionHalfword f ∧ c.isAdd f = true) → P w → P (updated w fun s => { s with psw := withBcd c s.psw v }))
    (hspecial : ∀ (w : Work) (r : SpecialReg) (v : Word) (u : Unit) (w' : Work), ok r → writeSpecial c r v w = .ok u w' → P w → P w')
    (hreturn : ∀ (w : Work) (f : Nibble → Nibble), inPrivileged c w.st = true → w.st.tpc.getLsbD 0 = false → P w →
      Q (updated w fun s => { s with
        pc := s.tpc
        psw := withLevel (withPrior s.psw (f (priorOf s.psw))) (priorOf s.psw) }))
    {w w' : Work} {u : Unit} (hp : P w) (h : workIn c i w = .ok u w') : Q w' := by
  have hanyCC : ∀ (w : Work), P w → P (updated w (anyCC c)) := by
    intro w hw
    exact hcc _ ((c.free w.st.draws).extractLsb' 0 4) (hdraw _ hw)
  cases i with
  | anyInstructionHalfword f =>
    exact run_ok_induct hdone hreg hpc hread hstore hnext hcc (fun w v ha => hbcd w v ⟨f, rfl, ha⟩) hdraw hspecial hreturn (c.operation f).program (hok f rfl) hp h
  | coget dst k => exact hdone _ (coget_induct hskip hdraw hunit hpc hreg hanyCC hp h)
  | coset src k => exact hdone _ (coset_induct hskip hunit hcostat hanyCC hp h)

/-- The work of an instruction whose operation is known. -/
theorem workIn_other {c : Config} {f : IrFields} {m : Nat} {p : Program m} (h : c.operation f = ⟨m, p⟩) (w : Work) :
    workIn c (.anyInstructionHalfword f) w = run c (c.isAdd f) p w := by
  rw [workIn, h]

/-- An instruction completes, or its trap is taken from the state it began in. -/
theorem exec_cases {c : Config} {i : Instr} {s t : State} (h : execIn c i s = .next t) :
   (∃ w u, workIn c i ⟨s, 0⟩ = .ok u w ∧ t = w.st) ∨ TrappedFrom c s t := by
  rw [execIn_eq_finish] at h
  cases hw : workIn c i ⟨s, 0⟩ with
  | ok u w => rw [hw] at h; cases h; exact .inl ⟨w, u, rfl, rfl⟩
  | trap tr w => rw [hw] at h; cases h; exact .inr ⟨tr, w, rfl⟩

end Sys2Proof.Machine
end

