-- ==== Sys2Proof/Tests/Slice0.lean ====
section
/-! SUPPORT. Tests on fixed values, with expected results from spec/95_test_vectors.md (cited as V) or worked by hand
from the rules; and for every statement that has hypotheses a state and operands that meet them. The opcode map, the
operations and the coprocessor below are a test's own: the spec gives none (30_encoding.md R109). -/

namespace Sys2Proof.Tests

open Sys2Proof Sys2Proof.Machine

/-! ### A configuration and a state to test with -/

/-- An opcode map of the test: op 0 is invalid, op 1 is COGET with op1 = 2 and COSET with op1 = 3. -/
def testKind (op op1 _op2 : Nibble) : OpKind :=
  if op = 0#4 then .invalid
  else if op = 1#4 ∧ op1 = 2#4 then .coget
  else if op = 1#4 ∧ op1 = 3#4 then .coset
  else .other

/-- The operations of the other instructions of the test, by op. -/
def testOperation (f : IrFields) : Operation :=
  if f.op = 2#4 then ⟨0, .readReg f.s2 .programCounter fun v => .writeReg f.dst v .done⟩
  else if f.op = 3#4 then ⟨0, .load 0x102#32 .half fun v => .writeReg f.dst v .done⟩
  else if f.op = 4#4 then ⟨0, .store 0x106#32 .half 0xBEEF#32 .done⟩
  else if f.op = 5#4 then ⟨0, .setPc 0x2002#32 .done⟩
  else if f.op = 6#4 then ⟨0, .setPc 0x2003#32 .done⟩
  else if f.op = 7#4 then ⟨1, .nextHalfword fun h => .writeReg f.dst (h.zeroExtend 32) .done⟩
  else if f.op = 8#4 then ⟨0, .requirePrivilege .done⟩
  else if f.op = 9#4 then ⟨0, .trapReturn id⟩
  else if f.op = 10#4 then ⟨0, .writeBcd 0xFF#32 .done⟩
  else if f.op = 11#4 then ⟨0, .writeSpecial .psw 0x8000000A#32 .done⟩
  else if f.op = 12#4 then ⟨0, .store 0x12345678#32 .byte 1#32 .done⟩
  else if f.op = 13#4 then ⟨0, .writeCC f.dst .done⟩
  else ⟨0, .done⟩

/-- A load through r4, a store of r4 through r4, a jump to r4 less its lowest bit and to r4, and an addition of r4 to
r4, all of the test. -/
def loadOf (d : Nibble) : Operation :=
  ⟨0, .readReg 4#4 .constantZero fun x => .load (x >>> 12) .word fun v => .writeReg d v .done⟩
def storeOf : Operation :=
  ⟨0, .readReg 4#4 .constantZero fun x => .readReg 4#4 .constantZero fun u => .store (x >>> 12) .word (u + 1#32) .done⟩
def jumpOf : Operation := ⟨0, .readReg 4#4 .constantZero fun x => .setPc (x - 1#32) .done⟩
def oddJumpOf : Operation := ⟨0, .readReg 4#4 .constantZero fun x => .setPc (id x) .done⟩
def addOf (d : Nibble) : Operation :=
  ⟨0, .readReg 4#4 .constantZero fun x => .readReg 4#4 .programCounter fun u =>
    .writeReg d (x + u) (.writeCC 5#4 (.writeBcd (x &&& u) .done))⟩

/-- The mapping register E of V7. -/
def entryE : MapEntry := ⟨0x12345#20, 0xABCDE#20, false, true, false, true, true⟩

/-- A page mapped onto real memory with every right. -/
def entryR : MapEntry := ⟨0x00001#20, 0x00000#20, true, true, true, true, true⟩

/-- A page marked invalid. -/
def entryV : MapEntry := ⟨0x00002#20, 0x00000#20, true, true, true, true, false⟩

/-- A configuration of the test: 4 megabytes of memory, `NMAP` = 2, coprocessors 2 and 5 of plain storage, `PSW_BCD` =
(15, 8), levels 0 to 3 privileged, request 1 enabled below level 8. -/
def tc : Config where
  real w := decide (w.toNat < 0x100000)
  coPresent n := n == 2#3 || n == 5#3
  coRegs _ _ := true
  coInstrImplemented := true
  coRead _ k _ u := ((u.regs[k.toNat - 1]?).getD 0#32, u)
  coWrite _ k _ v u := { u with regs := u.regs.setIfInBounds (k.toNat - 1) v }
  coAny _ := ⟨Vector.replicate 15 0x77#32, 0⟩
  nmapLess1 := 1
  opKind := testKind
  cogetDst := .dst
  cogetReg := .s2
  cosetSrc := .dst
  cosetReg := .s2
  coFurther _ := 0
  cogetZero := .jump
  cosetZero := .programCounter
  operation := testOperation
  isAdd f := f.op == 10#4
  trapVectorHigh k := match k with | .bus => 8#31 | .mmu => 16#31 | _ => 24#31
  trapLevelLow _ _ := 1#3
  isPrivileged l := decide (l.toNat < 4)
  irqEnabled l r := decide (l.toNat < 8) && r == 1
  irqInput _ := []
  busCauseNonexistent := 2#2
  mmuCause r := match r with | .nomatch => 0#2 | .invalid => 1#2 | _ => 3#2
  busTmaVirtual := true
  cycCountsFaulting := false
  bcdLoRaw := 4
  bcdSpanRaw := 7
  free n := BitVec.ofNat 32 (0xA5A5A5A5 + n)
  reset := { zeroReset with
    pcHigh := 0x800#31, level := 2#4, pswRest := 0xFFFFFFF#28, mmu := [entryE, entryR, entryE, entryV]
    image := [(0, 0x78#8), (0x400000, 1#8), (1, 0#8)] }

/-- The same with two halfwords to COGET and to COSET, and with destination 0 of COGET discarding. -/
def tcLong : Config := { tc with coFurther := fun _ => 1, cogetZero := .discard }

/-- The same without coprocessors. -/
def tcNoCo : Config := { tc with coInstrImplemented := false, coPresent := fun _ => false }

/-- Privileged code with the unit off: an instruction at 0x1000 is in execution. -/
def s0 : State :=
  { State.reset with
    pc := 0x1002#32
    psw := 0x0000000A#32
    regs := (Vector.replicate 15 0#32).set 3 0xDEADBEEF#32
    tma := 0x22#32
    tsv := 0x33#32
    costat := 0x00000204#32
    mem := [(0, 0x78#8), (1, 0x56#8), (2, 0x34#8), (3, 0x12#8), (4, 0x44#8), (5, 0x33#8), (6, 0x22#8), (7, 0x11#8)] }

/-- Application code with the unit on, at level 8. -/
def sUser : State := { s0 with psw := 0x8300000A#32, mmu := [entryE, entryR] }

/-- Application code with the unit off, at level 4. -/
def sUserOff : State := { s0 with psw := 0x4000000F#32 }

/-- A state in which the halfword at 0 is fetched next. -/
def sFetch : State := { s0 with pc := 0#32 }

/-- Privileged code that has come from an MMU trap of the page E: TMA names it, level 3 is in `prior`. -/
def sTrap : State := { s0 with psw := 0x1300000A#32, tma := 0x12345678#32, tpc := 0x2000#32, mmu := [entryR, entryE] }

/-- The state of a next outcome. -/
def after (o : Host.Outcome State Fault Refusal) : State :=
  match o with
  | .next s => s
  | .fault r => nomatch r
  | .refused _ => State.reset

/-! ### Decoding, from the layout of 30_encoding.md R101 to R104 -/

/-- 0x78 then 0x56 is the halfword 0x5678: op 7, dst 8, s1 5, s2 6 (V4.1). -/
theorem test_fields_5678 : splitHalfword (bytesHalfword 0x78#8 0x56#8) = ⟨7#4, 8#4, 5#4, 6#4⟩ := by decide

/-- Documentation order AB CD (V4.2). -/
theorem test_fields_cdab : splitHalfword (bytesHalfword 0xAB#8 0xCD#8) = ⟨10#4, 11#4, 12#4, 13#4⟩ := by
  decide

/-- An other instruction, written out: op 7 in ir[7:4], 8 in ir[3:0]. -/
theorem test_decode_other :
    decodeFields tc (splitHalfword 0b0101011001111000#16) =
      .ok (.anyInstructionHalfword ⟨7#4, 8#4, 5#4, 6#4⟩) := by decide

/-- COGET of the test's map, written out: op1 2, s2 5, op 1, dst 6. -/
theorem test_decode_coget :
    decodeFields tc (splitHalfword 0b0010010100010110#16) = .ok (.coget 6#4 5#4) := by decide

/-- COSET of the test's map, written out: op1 3, s2 1, op 1, dst 4. -/
theorem test_decode_coset :
    decodeFields tc (splitHalfword 0b0011000100010100#16) = .ok (.coset 4#4 1#4) := by decide

/-- An invalid operation code is refused by name (30_encoding.md R110). -/
theorem test_decode_invalid :
    decodeFields tc (splitHalfword 0x1203#16) = .error (.invalidOpcode ⟨0#4, 3#4, 1#4, 2#4⟩) := by decide

/-- One byte is no instruction (R100). -/
theorem test_decode_short : decode tc [0x78#8] = .error .tooShort := by rfl

/-- The encoder gives the word written out. -/
theorem test_encode_coget : encode tc (.coget 6#4 5#4) = some 0b0010010100010110#16 := by decide +kernel

/-! ### WellFormed refuses an ill-formed term of each check -/

theorem test_illformed_other : wellFormed tc (.anyInstructionHalfword ⟨0#4, 1#4, 2#4, 3#4⟩) = false := by decide

theorem test_illformed_other_coget : wellFormed tc (.anyInstructionHalfword ⟨1#4, 1#4, 2#4, 3#4⟩) = false := by
  decide

/-- Where both operands come from one field, they cannot differ. -/
theorem test_illformed_coget : wellFormed { tc with cogetReg := .dst } (.coget 6#4 5#4) = false := by
  decide +kernel

theorem test_illformed_coset : wellFormed { tc with opKind := fun _ _ _ => .coget } (.coset 4#4 1#4) = false := by
  decide +kernel

/-! ### Vectors of the spec -/

/-- V2.1 to V2.3: the views of the word 0x12345678. -/
theorem test_views :
    loadBytes s0.mem 2#32 .byte = 0x34#32 ∧ loadBytes s0.mem 1#32 .half = 0x5678#32 ∧
      loadBytes s0.mem 3#32 .half = 0x1234#32 ∧ loadBytes s0.mem 7#32 .word = 0x11223344#32 := by decide

/-- V2.5 to V2.7: stores. -/
theorem test_stores :
    memoryWord (storeBytes s0.mem 5#32 .byte 0xAB#32) 1#30 = 0x1122AB44#32 ∧
      memoryWord (storeBytes s0.mem 7#32 .half 0xBEEF#32) 1#30 = 0xBEEF3344#32 ∧
      memoryWord (storeBytes s0.mem 7#32 .word 0xCAFEF00D#32) 1#30 = 0xCAFEF00D#32 ∧
      memoryWord (storeBytes s0.mem 7#32 .word 0xCAFEF00D#32) 0#30 = 0x12345678#32 := by decide

/-- V3.1, V3.3: fetch and advance. -/
theorem test_fetch :
    (match fetch tc { sFetch with cyc := 7#32 } with
      | .ok h w => (h, w.st.ir, w.st.pc, w.st.cyc) | .trap _ _ => default) = (0x5678#16, 0x5678#16, 2#32, 8#32) := by
  decide

/-- V1.1: the fields of an address. -/
theorem test_address_fields :
    pageOf 0x12345678#32 = 0x12345#20 ∧ wipOf 0x12345678#32 = 0x19E#10 ∧ byteOf 0x12345678#32 = 0#2 ∧
      wordOf 0x12345678#32 = 0x048D159E#30 := by decide

/-- V6: shifts and extension. -/
theorem test_shifts :
    shiftRightSigned 0x80000001#32 1 = some 0xC0000000#32 ∧
      shiftRightUnsigned 0xFFFFFF00#32 5 = some 0x07FFFFF8#32 ∧ shiftLeft 1#32 31 = some 0x80000000#32 ∧
      shiftLeft 1#32 32 = none ∧ sext 0x80#8 = 0xFFFFFF80#32 ∧ sext 0b0101#4 = 5#32 ∧ zext 0b1011#4 = 0xB#32 ∧
      equivWord 0x0F0F0F0F#32 0x00FF00FF#32 = 0xF00FF00F#32 ∧ selectBits 0xFE0#32 31 5 = 0x7F#27 := by decide

/-- V7.2, V7.3: a page mapped for loads but not for stores. -/
theorem test_translate :
    (match translate tc .load 0x12345678#32 sUser with | .ok a => a | .error _ => 0#32) = 0xABCDE678#32 ∧
      (match translate tc .store 0x1234567B#32 sUser with
        | .ok _ => .privilege | .error t => t) = Trap.mmu 0x1234567B#32 3#2 := by decide

/-- V7.5, V7.12: bits 11 to 6 of the data are ignored. -/
theorem test_write_mmudata :
    lookupPage (writeMmuData tc 0x00123FCF#32 { s0 with tma := 0x00403000#32, mmu := [entryE] }).mmu 0x00403#20 =
      some ⟨0x00403#20, 0x00123#20, false, true, true, true, true⟩ := by decide

/-- V9.1: a write of the PSW turns the unit on. -/
theorem test_write_psw :
    (after (execAnyIn tc ⟨11#4, 0#4, 0#4, 0#4⟩ s0)).psw = 0x8000000A#32 ∧
      unitOn (after (execAnyIn tc ⟨11#4, 0#4, 0#4, 0#4⟩ s0)).psw = true := by decide

/-- V10.1: the entry of an invalid operation code trap from level 12. -/
theorem test_trap_entry :
    let t := abandon tc .invalidOpcode (instrStart s0) { s0 with psw := 0xC500000F#32 } ⟨s0, 0⟩
    t.tpc = 0x1000#32 ∧ t.tma = 0x22#32 ∧ t.tsv = 0x33#32 ∧ priorOf t.psw = 12#4 ∧ ccOf t.psw = 15#4 ∧
      unitOn t.psw = false := by decide

/-- V5.2: an odd target, whose low bits give way to the cause 01. -/
theorem test_odd_target :
    (after (execAnyIn tc ⟨6#4, 0#4, 0#4, 0#4⟩ s0)).tma = 0x2001#32 ∧
      (after (execAnyIn tc ⟨6#4, 0#4, 0#4, 0#4⟩ s0)).tpc = 0x1000#32 := by decide

/-- V8.2: COGET of a coprocessor that is absent. -/
theorem test_coget_traps :
    let t := after (execCogetIn tc 5#4 5#4 { s0 with costat := 0x306#32 })
    t.tpc = 0x1000#32 ∧ t.tma = 0x22#32 ∧ t.regs = s0.regs := by decide

/-- V8.6: COGET of register 0, in the bits of the mask. -/
theorem test_coget_costat :
    readStored (after (execCogetIn tc 6#4 0#4 { s0 with costat := 4#32 })) 6#4 &&& 0x0000F7FE#32 = 4#32 := by
  decide

/-- V8.4: COSET to a coprocessor of plain storage. -/
theorem test_coset_stores :
    coReg (after (execCosetIn tc 4#4 1#4 s0)) 2#3 1#4 = 0xDEADBEEF#32 := by decide +kernel

/-- V8.9: COSET of register 0. -/
theorem test_coset_costat :
    (after (execCosetIn tc 4#4 0#4 { s0 with regs := (Vector.replicate 15 0#32).set 3 0xFFFFFFFF#32 })).costat =
      0x0000F7FE#32 := by decide

/-- An instruction placed where the next step fetches is the one that step runs: COSET r4 to register 1. -/
theorem test_place :
    coReg (after (stepIn tc (placeInstruction tc 16 0x3114 { s0 with pc := 0x1000#32, irq := [1] }))) 2#3 1#4 =
      0xDEADBEEF#32 := by decide +kernel

/-- 42_special_register_access.md R158: unprivileged code has no return from trap, which would use TPC. -/
theorem test_return_unprivileged :
    let t := after (execAnyIn tc ⟨9#4, 0#4, 0#4, 0#4⟩ sUser)
    t.pc = trapVector tc .privilege ∧ t.tpc = 0x1000#32 ∧ levelOf t.psw = 1#4 ∧ priorOf t.psw = 8#4 := by decide

/-- 60_exceptions.md R185: in privileged code the level comes from `prior` and the pc from TPC. -/
theorem test_return_privileged :
    let t := after (execAnyIn tc ⟨9#4, 0#4, 0#4, 0#4⟩ sTrap)
    t.pc = 0x2000#32 ∧ levelOf t.psw = 3#4 ∧ ccOf t.psw = 10#4 := by decide

/-- 30_encoding.md R111: the first halfword gives the length; an invalid operation code is fetched alone. -/
theorem test_length :
    lengthOf tc 0x5678#16 = 2 ∧ lengthOf tc 0x5648#16 = 1 ∧ lengthOf tcLong 0x3114#16 = 2 ∧
      lengthOf tc 0x1203#16 = 1 := by
  decide

/-- 40_instruction_cycle.md R127: an add instruction sets the bcd carry, bits 15 to 8 in the test, from the low bits of
the value; R126: N Z V C are the low four bits. -/
theorem test_flags :
    (after (execAnyIn tc ⟨10#4, 0#4, 0#4, 0#4⟩ s0)).psw = 0x0000FF0A#32 ∧
      (after (execAnyIn tc ⟨13#4, 5#4, 0#4, 0#4⟩ s0)).psw = 0x00000005#32 := by decide

/-- 70_reset_and_hazards.md R201: of the reset values given, two mapping registers fit, one a page; an even pc and a
level; nothing in unused bits; the bytes of the image that exist. -/
theorem test_reset :
    (resetIn tc).pc = 0x1000#32 ∧ (resetIn tc).psw = 0x2F00FF0F#32 ∧ (resetIn tc).mmu = [entryR, entryE] ∧
      (resetIn tc).mem = [(0, 0x78#8)] := by decide

/-! ### Witnesses: the hypotheses of each statement are met, in each of its clauses -/

theorem witness_DecodeOfEncodeIsIdentity :
    wellFormed tc (.anyInstructionHalfword ⟨15#4, 15#4, 0#4, 0#4⟩) = true ∧ wellFormed tc (.coget 6#4 5#4) = true ∧
      wellFormed tc (.coset 15#4 0#4) = true := by decide +kernel

theorem witness_DecodedInstructionIsEncodable :
    decode tc [0x78#8, 0x56#8, 0xFF#8] = .ok (.anyInstructionHalfword ⟨7#4, 8#4, 5#4, 6#4⟩, [0xFF#8]) ∧
      decode tc [0x16#8, 0x25#8] = .ok (.coget 6#4 5#4, []) ∧
      decode tc [0x14#8, 0x31#8] = .ok (.coset 4#4 1#4, []) := ⟨rfl, rfl, rfl⟩

theorem witness_SpecHalfwordsDecode :
    tc.opKind 7#4 5#4 6#4 = .other ∧
      (let c : Config := { tc with opKind := fun _ _ _ => .coget }
       c.opKind 0xA#4 0xC#4 0xD#4 = .coget ∧ c.cogetDst = .dst ∧ c.cogetReg = .s2) ∧
      (let c : Config := { tc with opKind := fun _ _ _ => .coset, cosetSrc := .s1, cosetReg := .dst }
       c.opKind 0xA#4 0xC#4 0xD#4 = .coset ∧ c.cosetSrc = .s1 ∧ c.cosetReg = .dst) ∧
      (let c : Config := { tc with opKind := fun _ _ _ => .invalid }
       c.opKind 7#4 5#4 6#4 = .invalid) := by decide

theorem witness_StepRunsTheDecodedInstruction :
    takesInterrupt tc sFetch = false ∧ translate tc .fetch sFetch.pc sFetch = .ok 0#32 ∧
      tc.real (wordOf 0#32) = true ∧
      decode tc [readByte sFetch.mem (accessBase .half 0#32), readByte sFetch.mem (accessBase .half 0#32 + 1)] =
        .ok (.anyInstructionHalfword ⟨7#4, 8#4, 5#4, 6#4⟩, []) := ⟨rfl, rfl, rfl, rfl⟩

theorem witness_InvalidOpcodeTraps :
    let s := { sFetch with pc := 0x3FFFFE#32 }
    takesInterrupt tc s = false ∧ translate tc .fetch s.pc s = .ok 0x3FFFFE#32 ∧
      tc.real (wordOf 0x3FFFFE#32) = true ∧
      decode tc [readByte s.mem (accessBase .half 0x3FFFFE#32), readByte s.mem (accessBase .half 0x3FFFFE#32 + 1)] =
        .error (.invalidOpcode ⟨0#4, 0#4, 0#4, 0#4⟩) := ⟨rfl, rfl, rfl, rfl⟩

theorem witness_FetchTraps_unit :
    let s := { sUser with pc := 0x2000#32 }
    takesInterrupt tc s = false ∧ translate tc .fetch s.pc s = .error (.mmu 0x2000#32 0#2) := ⟨rfl, rfl⟩

theorem witness_FetchTraps_nonexistent :
    let s := { s0 with pc := 0x400000#32 }
    takesInterrupt tc s = false ∧ translate tc .fetch s.pc s = .ok 0x400000#32 ∧
      tc.real (wordOf 0x400000#32) = false := ⟨rfl, rfl, rfl⟩

theorem witness_InterruptIsTakenBetweenInstructions :
    let s := { s0 with irq := [7, 1] }
    1 ∈ s.irq ∧ tc.irqEnabled (levelOf s.psw) 1 = true := by decide

theorem witness_MemReadAnswers :
    translate tc .load 0x3FFFFF#32 s0 = .ok 0x3FFFFF#32 ∧ tc.real (wordOf 0x3FFFFF#32) = true ∧
      translate tc .fetch 0x1FFE#32 sUser = .ok 0x00000FFE#32 ∧ tc.real (wordOf 0xFFE#32) = true :=
  ⟨rfl, rfl, rfl, rfl⟩

theorem witness_MemWriteStores :
    translate tc .store 0x1FFF#32 sUser = .ok 0x00000FFF#32 ∧ tc.real (wordOf 0xFFF#32) = true := ⟨rfl, rfl⟩

theorem witness_LoadAfterStoreGivesTheValue :
    (∃ w', memWrite tc 0x1FFF#32 .word 0xCAFEF00D#32 ⟨sUser, 0⟩ = .ok () w') ∧
      translate tc .load 0x1FFF#32 sUser = translate tc .store 0x1FFF#32 sUser := ⟨⟨_, rfl⟩, rfl⟩

theorem witness_NonexistentMemoryTraps :
    tc.real (wordOf 0x400000#32) = false ∧ translate tc .load 0x400000#32 s0 = .ok 0x400000#32 ∧
      translate tc .store 0x400000#32 s0 = .ok 0x400000#32 ∧
      translate tc .load 0x12345678#32 sUser = .ok 0xABCDE678#32 ∧ tc.real (wordOf 0xABCDE678#32) = false :=
  ⟨rfl, rfl, rfl, rfl, rfl⟩

theorem witness_TranslationFollowsTheMappingRegister :
    unitOn s0.psw = false ∧ unitOn 0x7FFFFFFF#32 = false ∧ unitOn sUser.psw = true ∧
      (lookupPage sUser.mmu (pageOf 0x12345FFF#32) = some entryE ∧ entryE.v = true ∧ entryE.r = true ∧
        entryE.x = true) ∧
      (lookupPage sUser.mmu (pageOf 0x1000#32) = some entryR ∧ entryR.v = true ∧ entryR.w = true) ∧
      lookupPage sUser.mmu (pageOf 0x12346000#32) = none ∧
      (lookupPage [entryV] (pageOf 0x2FFF#32) = some entryV ∧ entryV.v = false) ∧
      (lookupPage sUser.mmu (pageOf 0x12345000#32) = some entryE ∧ entryE.w = false) ∧
      (let e : MapEntry := { entryE with x := false, r := false }
       lookupPage [e] (pageOf 0x12345000#32) = some e ∧ e.v = true ∧ e.x = false ∧ e.r = false) := by decide

theorem mmuOk_test : MmuOk tc sUser.mmu := ⟨by decide, by decide⟩

theorem witness_WriteOfMmuDataAssociates :
    (0x0012300F#32).getLsbD 5 = false ∧ MmuOk tc sUser.mmu ∧ sUser.mmu.length = nmap tc ∧ MmuOk tc s0.mmu :=
  ⟨by decide, mmuOk_test, by decide, ⟨by decide, by decide⟩⟩

theorem witness_GlobalWriteOfMmuDataAndsRights : (0xFFFFF02B#32).getLsbD 5 = true := by decide

theorem witness_InvalidateAllMappings :
    (0x0000003E#32).getLsbD 5 = true ∧ (0x0000003E#32).getLsbD 0 = false ∧ unitOn sUser.psw = true ∧
      { sUser with mmu := (writeMmuData tc 0x3E#32 sUser).mmu }.mmu = (writeMmuData tc 0x3E#32 sUser).mmu := by
  decide

/-- The entry read is the older of two. -/
theorem witness_ReadOfMmuDataShowsTheEntry :
    lookupPage sTrap.mmu (pageOf sTrap.tma) = some entryE ∧
      lookupPage sUser.mmu (pageOf sUser.tma) = none ∧ (0x00077001#32).getLsbD 5 = false := by decide

theorem witness_MmuTrapShowsTheRefusedPage :
    lookupPage sUser.mmu (pageOf 0x12345FFF#32) = some entryE ∧ lookupPage sUser.mmu (pageOf 0x12346000#32) = none := by
  decide

theorem witness_TrapsArePrecise :
    (∃ w, workIn tc (.anyInstructionHalfword ⟨6#4, 0#4, 0#4, 0#4⟩) ⟨s0, 0⟩ = .trap (.bus 0x2003#32 1#2) w) ∧
      (∃ w, workIn tc (.coget 5#4 5#4) ⟨{ s0 with costat := 0x306#32 }, 0⟩ = .trap .coprocessor w) ∧
      ∃ w, workIn tc (.coset 5#4 1#4) ⟨{ s0 with costat := 0x200#32 }, 0⟩ = .trap .coprocessor w :=
  ⟨⟨_, rfl⟩, ⟨_, rfl⟩, ⟨_, rfl⟩⟩

theorem witness_OddTargetTraps :
    (0x2003#32).getLsbD 0 = true ∧ (0xFFFFFFFE#32).getLsbD 0 = false ∧
      tc.operation ⟨6#4, 0#4, 0#4, 0#4⟩ = ⟨0, .setPc 0x2003#32 .done⟩ ∧
      ({ tc with operation := fun _ => oddJumpOf }.operation default =
          ⟨0, .readReg 4#4 .constantZero fun x => .setPc (id x) .done⟩ ∧
        (0xDEADBEEF#32).getLsbD 0 = true ∧ 0xDEADBEEF#32 = id (readReg s0 4#4 .constantZero)) :=
  ⟨rfl, rfl, rfl, rfl, rfl, rfl⟩

theorem witness_ReturnUndoesTrapEntry : (0xFFFFFFFE#32).getLsbD 0 = false ∧ (0x1235#32).getLsbD 0 = true := by
  decide

theorem witness_SpecialRegistersHoldWhatIsWritten : inPrivileged tc s0 = true := by decide

theorem witness_PrivilegedRegistersTrap :
    inPrivileged tc sUser = false ∧ inPrivileged tc sUserOff = false ∧ SpecialReg.mmudata ≠ .psw := by decide

theorem witness_PswWriteSetsEveryField : inPrivileged tc { s0 with psw := 0x3000000A#32 } = true := by decide

theorem witness_PswWriteByUnprivilegedCode :
    inPrivileged tc sUser = false ∧
      (levelOf 0x8300FF05#32 = levelOf sUser.psw ∧ priorOf 0x8300FF05#32 = priorOf sUser.psw) ∧
      ¬(levelOf 0x03000005#32 = levelOf sUser.psw ∧ priorOf 0x03000005#32 = priorOf sUser.psw) ∧
      ¬(levelOf 0x84000005#32 = levelOf sUser.psw ∧ priorOf 0x84000005#32 = priorOf sUser.psw) := by decide

theorem witness_AtMostOneCoprocessorIsActive : coStateOf tc 0x0000F224#32 2#3 = .active := by decide

theorem witness_CogetOfCostatCompletes :
    coImplemented tcLong = true ∧ FetchesFurther tcLong (coFurtherOf tcLong s0) s0 ∧
      FetchesFurther tc (coFurtherOf tc s0) s0 ∧ (15#4 : Nibble) ≠ 0#4 :=
  ⟨by decide, ⟨_, rfl⟩, ⟨_, rfl⟩, by decide⟩

theorem witness_CogetOfActiveCoprocessorCompletes :
    coImplemented tcLong = true ∧ FetchesFurther tcLong (coFurtherOf tcLong s0) s0 ∧ (1#4 : Nibble) ≠ 0#4 ∧
      (15#4 : Nibble) ≠ 0#4 ∧ coStateOf tcLong s0.costat (selectOf s0.costat) = .active :=
  ⟨by decide, ⟨_, rfl⟩, by decide, by decide, by decide⟩

theorem witness_CogetToRegisterZero_discard :
    coImplemented tcLong = true ∧ tcLong.cogetZero = .discard ∧ ∃ w1 w2 v,
      skipHalfwords tcLong (coFurtherOf tcLong s0) ⟨s0, 0⟩ = .ok () w1 ∧ coGetValue tcLong 0#4 w1 = .ok v w2 :=
  ⟨by decide, rfl, _, _, _, rfl, rfl⟩

theorem witness_CogetToRegisterZero_jump :
    coImplemented tc = true ∧ tc.cogetZero = .jump ∧ ∃ w1 w2,
      skipHalfwords tc (coFurtherOf tc s0) ⟨s0, 0⟩ = .ok () w1 ∧ coGetValue tc 1#4 w1 = .ok 0#32 w2 ∧
      (0#32).getLsbD 0 = false := ⟨by decide, rfl, _, _, rfl, rfl, rfl⟩

theorem witness_CogetToRegisterZero_odd :
    let s := { s0 with co := Vector.replicate 7 ⟨Vector.replicate 15 3#32, 0⟩ }
    coImplemented tc = true ∧ tc.cogetZero = .jump ∧ ∃ w1 w2,
      skipHalfwords tc (coFurtherOf tc s0) ⟨s, 0⟩ = .ok () w1 ∧ coGetValue tc 15#4 w1 = .ok 3#32 w2 ∧
      (3#32).getLsbD 0 = true := ⟨by decide, rfl, _, _, rfl, rfl, rfl⟩

theorem witness_CosetOfCostatCompletes :
    coImplemented tcLong = true ∧ FetchesFurther tcLong (coFurtherOf tcLong s0) s0 ∧
      (let v := readReg (afterHalfwords (coFurtherOf tc s0) s0) 4#4 tc.cosetZero
       (present tc 2#3 = true → enabledIn s0.costat 2#3 = enabledIn v 2#3) ∧ present tc 7#3 = false) :=
  ⟨by decide, ⟨_, rfl⟩, by decide⟩

theorem witness_CosetOfActiveCoprocessorCompletes :
    coImplemented tcLong = true ∧ FetchesFurther tcLong (coFurtherOf tcLong s0) s0 ∧ (15#4 : Nibble) ≠ 0#4 ∧
      coStateOf tcLong s0.costat (selectOf s0.costat) = .active := ⟨by decide, ⟨_, rfl⟩, by decide, by decide⟩

theorem witness_CoprocessorTrapUnlessActive :
    coImplemented tcLong = true ∧ (1#4 : Nibble) ≠ 0#4 ∧
      coStateOf tcLong 0x306#32 (selectOf 0x306#32) ≠ .active ∧
      coStateOf tcLong 0x200#32 (selectOf 0x200#32) ≠ .active ∧
      coStateOf tcLong 0x004#32 (selectOf 0x004#32) ≠ .active ∧
      FetchesFurther tcLong (coFurtherOf tcLong s0) { s0 with costat := 0x306#32 } ∧
      FetchesFurther tcLong (coFurtherOf tcLong s0) { s0 with costat := 0x004#32 } :=
  ⟨by decide, by decide, by decide, by decide, by decide, ⟨_, rfl⟩, ⟨_, rfl⟩⟩

theorem witness_UnimplementedCoprocessorInstructionsTrap : coImplemented tcNoCo = false := by decide

theorem witness_StorageCoprocessorGivesBackTheWord :
    coImplemented tc = true ∧ coFurtherOf tc s0 = 0 ∧ tc.coFurther (splitHalfword 0x2516#16) = 0 ∧
      (4#4 : Nibble) ≠ 0#4 ∧
      (5#4 : Nibble) ≠ 0#4 ∧ (15#4 : Nibble) ≠ 0#4 ∧
      coStateOf tc s0.costat (selectOf s0.costat) = .active ∧ PlainStorage tc (selectOf s0.costat) ∧
      tc.coRegs (selectOf s0.costat) 15#4 = true :=
  ⟨by decide, rfl, rfl, by decide, by decide, by decide, by decide,
    ⟨fun _ _ _ => rfl, fun _ _ _ _ => rfl⟩, rfl⟩

/-- A run that ends, of an instruction of two halfwords that stays in line, and one that traps. -/
theorem witness_OtherInstructionRunsItsOperation :
    (let s := { s0 with ir := 0x5678#16 }
     (∃ u w, run tc (tc.isAdd ⟨7#4, 8#4, 5#4, 6#4⟩) (tc.operation ⟨7#4, 8#4, 5#4, 6#4⟩).program ⟨s, 0⟩ = .ok u w ∧
        w.st.pc = 0x1004#32) ∧
      staysInLine (tc.operation ⟨7#4, 8#4, 5#4, 6#4⟩).program ∧
      decodeFields tc (splitHalfword s.ir) = .ok (.anyInstructionHalfword ⟨7#4, 8#4, 5#4, 6#4⟩)) ∧
      ∃ tr w, run tc (tc.isAdd ⟨6#4, 0#4, 0#4, 0#4⟩) (tc.operation ⟨6#4, 0#4, 0#4, 0#4⟩).program ⟨s0, 0⟩ =
        .trap tr w :=
  ⟨⟨⟨_, _, rfl, rfl⟩, fun _ => trivial, rfl⟩, ⟨_, _, rfl⟩⟩

theorem witness_RegisterMoveCompletes :
    tc.operation ⟨2#4, 15#4, 0#4, 4#4⟩ = ⟨0, .readReg 4#4 .programCounter fun v => .writeReg 15#4 v .done⟩ ∧
      tc.operation ⟨2#4, 0#4, 0#4, 0#4⟩ = ⟨0, .readReg 0#4 .programCounter fun v => .writeReg 0#4 v .done⟩ ∧
      (let c := { tc with operation := fun _ => ⟨0, .readReg 0#4 .constantZero fun v => .writeReg 1#4 v .done⟩ }
       c.operation default =
        ⟨0, .readReg 0#4 .constantZero fun v => .writeReg 1#4 v .done⟩) := ⟨rfl, rfl, rfl⟩

/-- The address a constant, and the address r4 shifted right, 0xDEADB. -/
theorem witness_LoadInstructionCompletes :
    (tc.operation ⟨3#4, 15#4, 0#4, 0#4⟩ = ⟨0, .load 0x102#32 .half fun v => .writeReg 15#4 v .done⟩ ∧
      tc.operation ⟨3#4, 0#4, 0#4, 0#4⟩ = ⟨0, .load 0x102#32 .half fun v => .writeReg 0#4 v .done⟩ ∧
      translate tc .load 0x102#32 s0 = .ok 0x102#32 ∧ tc.real (wordOf 0x102#32) = true) ∧
      { tc with operation := fun f => loadOf f.dst }.operation ⟨0#4, 15#4, 0#4, 0#4⟩ =
        ⟨0, .readReg 4#4 .constantZero fun x => .load (x >>> 12) .word fun v => .writeReg 15#4 v .done⟩ ∧
      0xDEADB#32 = readReg s0 4#4 .constantZero >>> 12 ∧ translate tc .load 0xDEADB#32 s0 = .ok 0xDEADB#32 ∧
      tc.real (wordOf 0xDEADB#32) = true := ⟨⟨rfl, rfl, rfl, rfl⟩, rfl, rfl, rfl, rfl⟩

theorem witness_StoreInstructionCompletes :
    (tc.operation ⟨4#4, 0#4, 0#4, 0#4⟩ = ⟨0, .store 0x106#32 .half 0xBEEF#32 .done⟩ ∧
      translate tc .store 0x106#32 s0 = .ok 0x106#32 ∧ tc.real (wordOf 0x106#32) = true) ∧
      { tc with operation := fun _ => storeOf }.operation default =
        ⟨0, .readReg 4#4 .constantZero fun x => .readReg 4#4 .constantZero fun u =>
          .store (x >>> 12) .word (u + 1#32) .done⟩ ∧
      0xDEADB#32 = readReg s0 4#4 .constantZero >>> 12 ∧ 0xDEADBEF0#32 = readReg s0 4#4 .constantZero + 1#32 ∧
      translate tc .store 0xDEADB#32 s0 = .ok 0xDEADB#32 ∧ tc.real (wordOf 0xDEADB#32) = true :=
  ⟨⟨rfl, rfl, rfl⟩, rfl, rfl, rfl, rfl, rfl⟩

theorem witness_JumpInstructionCompletes :
    (tc.operation ⟨5#4, 0#4, 0#4, 0#4⟩ = ⟨0, .setPc 0x2002#32 .done⟩ ∧ (0x2002#32).getLsbD 0 = false) ∧
      { tc with operation := fun _ => jumpOf }.operation default =
        ⟨0, .readReg 4#4 .constantZero fun x => .setPc (x - 1#32) .done⟩ ∧
      0xDEADBEEE#32 = readReg s0 4#4 .constantZero - 1#32 ∧ (0xDEADBEEE#32).getLsbD 0 = false :=
  ⟨⟨rfl, rfl⟩, rfl, rfl, rfl⟩

theorem witness_SecondHalfwordIsFetchedOrTraps :
    tc.operation ⟨7#4, 15#4, 0#4, 0#4⟩ = ⟨1, .nextHalfword fun h => .writeReg 15#4 (h.zeroExtend 32) .done⟩ ∧
      (translate tc .fetch s0.pc s0 = .ok 0x1002#32 ∧ tc.real (wordOf 0x1002#32) = true) ∧
      (unitOn { sUser with pc := 0x2000#32 }.psw = true ∧
        lookupPage { sUser with pc := 0x2000#32 }.mmu (pageOf { sUser with pc := 0x2000#32 }.pc) = none) :=
  ⟨rfl, ⟨rfl, rfl⟩, rfl, rfl⟩

theorem witness_PrivilegedInstructionTraps :
    tc.operation ⟨8#4, 0#4, 0#4, 0#4⟩ = ⟨0, .requirePrivilege .done⟩ ∧ inPrivileged tc sUser = false ∧
      inPrivileged tc s0 = true := ⟨rfl, by decide, by decide⟩

theorem witness_ReturnInstructionCompletes :
    tc.operation ⟨9#4, 0#4, 0#4, 0#4⟩ = ⟨0, .trapReturn id⟩ ∧
      (inPrivileged tc sTrap = true ∧ sTrap.tpc.getLsbD 0 = false) ∧
      inPrivileged tc sUser = false := ⟨rfl, by decide, by decide⟩

theorem witness_OnlyCoprocessorInstructionsReachCoprocessors :
    ∃ t, execIn tc (.anyInstructionHalfword ⟨4#4, 0#4, 0#4, 0#4⟩) s0 = .next t := ⟨_, rfl⟩

theorem witness_OnlyAddInstructionsSetBcdCarry :
    (∀ f, Instr.anyInstructionHalfword ⟨4#4, 0#4, 0#4, 0#4⟩ = .anyInstructionHalfword f →
      tc.isAdd f = false ∧ writesOnly (· ≠ .psw) (tc.operation f).program) ∧
      (∃ t, execIn tc (.anyInstructionHalfword ⟨4#4, 0#4, 0#4, 0#4⟩) s0 = .next t) ∧
      ∃ t, execIn tc (.coset 4#4 1#4) s0 = .next t :=
  ⟨fun f h => by cases h; exact ⟨rfl, trivial⟩, ⟨_, rfl⟩, ⟨_, rfl⟩⟩

theorem witness_CycCountsMemoryOperations :
    (∀ f, Instr.anyInstructionHalfword ⟨4#4, 0#4, 0#4, 0#4⟩ = .anyInstructionHalfword f →
      writesOnly (· ≠ .cyc) (tc.operation f).program) ∧
      (∃ u w, workIn tc (.anyInstructionHalfword ⟨4#4, 0#4, 0#4, 0#4⟩) ⟨s0, 0⟩ = .ok u w ∧ w.ops = 1) ∧
      ∃ tr w, workIn { tc with cycCountsFaulting := true } (.anyInstructionHalfword ⟨12#4, 0#4, 0#4, 0#4⟩)
        ⟨s0, 0⟩ = .trap tr w ∧ w.ops = 1 :=
  ⟨fun f h => by cases h; trivial, ⟨_, _, rfl, rfl⟩, ⟨_, _, rfl, rfl⟩⟩

theorem witness_TsvIsChangedBySoftwareOnly :
    (∀ f, Instr.anyInstructionHalfword ⟨6#4, 0#4, 0#4, 0#4⟩ = .anyInstructionHalfword f →
      writesOnly (· ≠ .tsv) (tc.operation f).program) ∧
      ∃ t, execIn tc (.anyInstructionHalfword ⟨6#4, 0#4, 0#4, 0#4⟩) s0 = .next t :=
  ⟨fun f h => by cases h; trivial, ⟨_, rfl⟩⟩

theorem witness_UnprivilegedCodeKeepsPrivilegedRegisters :
    inPrivileged tc sUser = false ∧
      ∃ t, execIn tc (.anyInstructionHalfword ⟨2#4, 1#4, 0#4, 0#4⟩) sUser = .next t ∧ t.pc = sUser.pc :=
  ⟨by decide, _, rfl, rfl⟩

/-- Each of the two cases happens: a trap, of a return too, and no change of mode. -/
theorem witness_UnprivilegedCodeChangesModeByTrapOnly :
    inPrivileged tc sUser = false ∧
      (∃ t, execIn tc (.anyInstructionHalfword ⟨9#4, 1#4, 0#4, 0#4⟩) sUser = .next t ∧ levelOf t.psw = 1#4) ∧
      ∃ t, execIn tc (.anyInstructionHalfword ⟨2#4, 1#4, 0#4, 0#4⟩) sUser = .next t ∧ levelOf t.psw = 8#4 :=
  ⟨by decide, ⟨_, rfl, by decide⟩, ⟨_, rfl, by decide⟩⟩

/-- A store at 0x1FFE goes to physical page 0, which is writable; the byte after that page is not. -/
theorem witness_MappingRegistersIsolateMemory :
    let c := { tc with operation := fun _ => ⟨0, .store 0x1FFE#32 .half 0xBEEF#32 .done⟩ }
    inPrivileged c sUser = false ∧ unitOn sUser.psw = true ∧ ¬writableByte sUser 4096 ∧ writableByte sUser 4095 ∧
      ∃ t, execIn c (.anyInstructionHalfword default) sUser = .next t ∧ readByte t.mem 4095 = 0xBE#8 := by
  refine ⟨by decide, by decide, by unfold writableByte; decide, by unfold writableByte; decide, _, rfl, by decide⟩

theorem witness_NonexistentMemoryIsNeverWritten :
    (∃ t, execIn tc (.anyInstructionHalfword ⟨4#4, 0#4, 0#4, 0#4⟩) s0 = .next t) ∧
      tc.real (BitVec.ofNat 30 (0x400000 / 4)) = false := ⟨⟨_, rfl⟩, rfl⟩

/-- A state other than that of reset with the invariant, and its step. -/
theorem witness_StepKeepsTheInvariant : Inv tc sUser ∧ ∃ t, stepIn tc sUser = .next t :=
  ⟨⟨by decide, mmuOk_test, by decide, by decide, by decide, by decide, by decide +kernel, by decide +kernel⟩,
    ⟨_, rfl⟩⟩

theorem witness_ResetIsAPermittedState : Inv tc sUser ∧ sUser.draws = 0 := ⟨witness_StepKeepsTheInvariant.1, rfl⟩

/-- Each clause: the bcd carry of an add instruction, the condition codes, and r4 added to r4 into any register. -/
theorem witness_FlagWritingInstructionsComplete :
    (tc.operation ⟨10#4, 0#4, 0#4, 0#4⟩ = ⟨0, .writeBcd 0xFF#32 .done⟩ ∧ tc.isAdd ⟨10#4, 0#4, 0#4, 0#4⟩ = true) ∧
      tc.operation ⟨13#4, 15#4, 0#4, 0#4⟩ = ⟨0, .writeCC 15#4 .done⟩ ∧
      ∀ d, { tc with operation := fun f => addOf f.dst }.operation ⟨10#4, d, 0#4, 0#4⟩ =
        ⟨0, .readReg 4#4 .constantZero fun x => .readReg 4#4 .programCounter fun u =>
          .writeReg d ((· + ·) x u) (.writeCC ((fun _ _ => 5#4) x u) (.writeBcd ((· &&& ·) x u) .done))⟩ :=
  ⟨⟨rfl, rfl⟩, rfl, fun _ => rfl⟩

theorem witness_ShiftsAreArithmetic : (31 : Nat) ≤ 31 ∧ (32 : Nat) ≤ 32 := by decide

theorem witness_ExtensionsRepeatTheTopBitOrZero :
    (0 < 1 ∧ 1 ≤ 32 ∧ 31 < 32) ∧ (0 < 32 ∧ 32 ≤ 32 ∧ 31 < 32) := by decide

end Sys2Proof.Tests
end

section
/-! The shifts and the extensions of the spec's notation (spec/00_scope.md R9, R11): what each does for every word and
count, or every field and bit, and the two statements about them. -/

namespace Sys2Proof.Machine

open Sys2Proof

/-! ### The shifts (R9): a result for a count below 32, none from 32 on -/

theorem shiftLeft_eq_none {b : Nat} (a : Word) (hb : 32 ≤ b) : shiftLeft a b = none :=
  if_neg (by omega)

theorem shiftRightUnsigned_eq_none {b : Nat} (a : Word) (hb : 32 ≤ b) : shiftRightUnsigned a b = none :=
  if_neg (by omega)

theorem shiftRightSigned_eq_none {b : Nat} (a : Word) (hb : 32 ≤ b) : shiftRightSigned a b = none :=
  if_neg (by omega)

/-- The product wraps modulo 2^32. -/
theorem shiftLeft_eq_mul_pow {b : Nat} (a : Word) (hb : b < 32) :
    shiftLeft a b = some (BitVec.ofNat 32 (a.toNat * 2 ^ b)) := by
  have hval : a <<< b = BitVec.ofNat 32 (a.toNat * 2 ^ b) := BitVec.eq_of_toNat_eq <| by
    rw [BitVec.toNat_shiftLeft, BitVec.toNat_ofNat, Nat.shiftLeft_eq]
  rw [shiftLeft, if_pos hb, hval]

/-- The quotient of the unsigned reading; it needs no wrapping, as the shift makes no word larger. -/
theorem shiftRightUnsigned_eq_div_pow {b : Nat} (a : Word) (hb : b < 32) :
    shiftRightUnsigned a b = some (BitVec.ofNat 32 (a.toNat / 2 ^ b)) := by
  have hval : a >>> b = BitVec.ofNat 32 (a.toNat / 2 ^ b) := by
    rw [← Nat.shiftRight_eq_div_pow, ← BitVec.toNat_ushiftRight, BitVec.ofNat_toNat, BitVec.setWidth_eq]
  rw [shiftRightUnsigned, if_pos hb, hval]

/-- The floor of the quotient of the signed reading, as a word again. -/
theorem shiftRightSigned_eq_div_pow {b : Nat} (a : Word) (hb : b < 32) :
    shiftRightSigned a b = some (BitVec.ofInt 32 (a.toInt / 2 ^ b)) := by
  have hval : a.sshiftRight b = BitVec.ofInt 32 (a.toInt / 2 ^ b) := by
    rw [BitVec.sshiftRight, Int.shiftRight_eq_div_pow, Nat.cast_pow, Nat.cast_ofNat]
  rw [shiftRightSigned, if_pos hb, hval]

/-- Settles O58: the arithmetic of each shift below the boundary, no result from the boundary on. -/
theorem shiftsAreArithmetic : Obligations.ShiftsAreArithmetic := by
  intro a b
  constructor
  · intro hb
    have hlt : b < 32 := by omega
    exact ⟨shiftLeft_eq_mul_pow a hlt, shiftRightUnsigned_eq_div_pow a hlt, shiftRightSigned_eq_div_pow a hlt⟩
  · intro hb
    exact ⟨shiftLeft_eq_none a hb, shiftRightUnsigned_eq_none a hb, shiftRightSigned_eq_none a hb⟩

/-! ### The extensions (R11), bit by bit -/

theorem getLsbD_sext {n i : Nat} (v : BitVec n) (hi : i < 32) :
    (sext v).getLsbD i = if i < n then v.getLsbD i else v.msb := by
  rw [sext, BitVec.getLsbD_signExtend, decide_eq_true hi, Bool.true_and]

theorem getLsbD_zext {n i : Nat} (v : BitVec n) (hi : i < 32) :
    (zext v).getLsbD i = if i < n then v.getLsbD i else false := by
  rw [zext, BitVec.getLsbD_setWidth, decide_eq_true hi, Bool.true_and]
  split
  · rfl
  · next hn => exact BitVec.getLsbD_of_ge v i (Nat.le_of_not_lt hn)

/-- Settles O59: both readings of each bit of the word; they hold of a field of any width. -/
theorem extensionsRepeatTheTopBitOrZero : Obligations.ExtensionsRepeatTheTopBitOrZero :=
  fun _ v _ _ _ hi => ⟨getLsbD_sext v hi, getLsbD_zext v hi⟩

end Sys2Proof.Machine
end

section
/-! What the operations that branch leave alone, field by field: a register write, a write of MMUDATA and a write of any
special register; and when a coprocessor is active. -/

namespace Sys2Proof.Machine

open Sys2Proof

/-! ### A register write and a write of MMUDATA -/

/-- A register write touches the general registers, no more (40_instruction_cycle.md R125). -/
theorem writeReg_frame (s : State) (n : Nibble) (v : Word) :
    writeReg s n v = { s with regs := (writeReg s n v).regs } := by
  unfold writeReg; split <;> rfl

@[simp] theorem writeReg_psw (s : State) (n : Nibble) (v : Word) : (writeReg s n v).psw = s.psw := by
  rw [writeReg_frame]
@[simp] theorem writeReg_costat (s : State) (n : Nibble) (v : Word) : (writeReg s n v).costat = s.costat := by
  rw [writeReg_frame]
@[simp] theorem writeReg_tpc (s : State) (n : Nibble) (v : Word) : (writeReg s n v).tpc = s.tpc := by
  rw [writeReg_frame]
@[simp] theorem writeReg_tma (s : State) (n : Nibble) (v : Word) : (writeReg s n v).tma = s.tma := by
  rw [writeReg_frame]
@[simp] theorem writeReg_tsv (s : State) (n : Nibble) (v : Word) : (writeReg s n v).tsv = s.tsv := by
  rw [writeReg_frame]
@[simp] theorem writeReg_cyc (s : State) (n : Nibble) (v : Word) : (writeReg s n v).cyc = s.cyc := by
  rw [writeReg_frame]
@[simp] theorem writeReg_mmu (s : State) (n : Nibble) (v : Word) : (writeReg s n v).mmu = s.mmu := by
  rw [writeReg_frame]
@[simp] theorem writeReg_co (s : State) (n : Nibble) (v : Word) : (writeReg s n v).co = s.co := by
  rw [writeReg_frame]

@[simp] theorem writeMmuData_costat (c : Config) (d : Word) (s : State) : (writeMmuData c d s).costat = s.costat := by
  rw [writeMmuData_frame]
@[simp] theorem writeMmuData_tsv (c : Config) (d : Word) (s : State) : (writeMmuData c d s).tsv = s.tsv := by
  rw [writeMmuData_frame]
@[simp] theorem writeMmuData_cyc (c : Config) (d : Word) (s : State) : (writeMmuData c d s).cyc = s.cyc := by
  rw [writeMmuData_frame]
@[simp] theorem writeMmuData_co (c : Config) (d : Word) (s : State) : (writeMmuData c d s).co = s.co := by
  rw [writeMmuData_frame]

/-! ### A write of a special register -/

theorem writeSpecial_ok_costat {c : Config} {r : SpecialReg} {v : Word} {u : Unit} {w w' : Work}
    (h : writeSpecial c r v w = .ok u w') : w'.st.costat = w.st.costat := by
  obtain ⟨-, rfl⟩ := writeSpecial_eq_ok.1 h
  cases r <;> simp

theorem writeSpecial_ok_co {c : Config} {r : SpecialReg} {v : Word} {u : Unit} {w w' : Work}
    (h : writeSpecial c r v w = .ok u w') : w'.st.co = w.st.co := by
  obtain ⟨-, rfl⟩ := writeSpecial_eq_ok.1 h
  cases r <;> simp

theorem writeSpecial_ok_ops {c : Config} {r : SpecialReg} {v : Word} {u : Unit} {w w' : Work}
    (h : writeSpecial c r v w = .ok u w') : w'.ops = w.ops := by
  obtain ⟨-, rfl⟩ := writeSpecial_eq_ok.1 h
  rfl

theorem writeSpecial_ok_cyc {c : Config} {r : SpecialReg} {v : Word} {u : Unit} {w w' : Work} (hr : r ≠ .cyc)
    (h : writeSpecial c r v w = .ok u w') : w'.st.cyc = w.st.cyc := by
  obtain ⟨-, rfl⟩ := writeSpecial_eq_ok.1 h
  cases r <;> simp at hr ⊢

theorem writeSpecial_ok_tsv {c : Config} {r : SpecialReg} {v : Word} {u : Unit} {w w' : Work} (hr : r ≠ .tsv)
    (h : writeSpecial c r v w = .ok u w') : w'.st.tsv = w.st.tsv := by
  obtain ⟨-, rfl⟩ := writeSpecial_eq_ok.1 h
  cases r <;> simp at hr ⊢

/-! ### Which coprocessor is active (10_state.md R34) -/

theorem coStateOf_eq_active {c : Config} {costat : Word} {n : BitVec 3} :
    coStateOf c costat n = .active ↔
      present c n = true ∧ enabledIn costat n = true ∧ selectOf costat = n := by
  unfold coStateOf
  split_ifs <;> simp [*]

/-- There is no coprocessor 0 (10_state.md R33). -/
theorem ne_zero_of_present {c : Config} {n : BitVec 3} (h : present c n = true) : n ≠ 0#3 := by
  simp only [present, Bool.and_eq_true, bne_iff_ne] at h
  exact h.1

end Sys2Proof.Machine
end

section
/-! The invariant of the machine: every update that an instruction is made of keeps it, so every instruction does, and
so does every other way a step can end. -/

namespace Sys2Proof.Machine

open Sys2Proof

/-! ### One rule per update -/

/-- Advancing by whole halfwords keeps bit 0. -/
theorem getLsbD_zero_add_two_mul (a : Word) (n : Nat) :
    (a + BitVec.ofNat 32 (2 * n)).getLsbD 0 = a.getLsbD 0 := by
  have hstep : (BitVec.ofNat 32 (2 * n)).getLsbD 0 = false := by
    rw [BitVec.getLsbD_ofNat, Nat.testBit_zero]
    simp
  rw [BitVec.getLsbD_add (by decide), hstep]
  simp

theorem Inv.setPc {c : Config} {s : State} (h : Inv c s) {t : Word} (ht : t.getLsbD 0 = false) :
    Inv c { s with pc := t } :=
  { h with pcEven := ht }

theorem Inv.setPsw {c : Config} {s : State} (h : Inv c s) {p : Word} (hp : p &&& ~~~pswMask c = 0#32) :
    Inv c { s with psw := p } :=
  { h with pswUnused := hp }

theorem Inv.advance {c : Config} {s : State} (h : Inv c s) (n : Nat) :
    Inv c { s with pc := s.pc + BitVec.ofNat 32 (2 * n) } :=
  h.setPc ((getLsbD_zero_add_two_mul s.pc n).trans h.pcEven)

/-- The parts of the state that the invariant says nothing of. -/
theorem Inv.withRest {c : Config} {s : State} (h : Inv c s) (regs : Vector Word 15) (tpc tma tsv cyc : Word)
    (ir : Halfword) (irq : List Nat) (draws : Nat) :
    Inv c { s with
      regs := regs, tpc := tpc, tma := tma, tsv := tsv, cyc := cyc, ir := ir, irq := irq, draws := draws } :=
  { h with }

theorem Inv.writeReg {c : Config} {s : State} (h : Inv c s) (n : Nibble) (v : Word) : Inv c (writeReg s n v) := by
  rw [writeReg_frame]
  exact h.withRest ..

/-- A store of a word that exists lists new bytes of that word only (20_memory.md R72, R73). -/
theorem Inv.storeBytes {c : Config} {s : State} (h : Inv c s) {pa : Word} (hr : c.real (wordOf pa) = true)
    (n : Width) (v : Word) : Inv c { s with mem := storeBytes s.mem pa n v } where
  __ := h
  memWf := wf_storeBytes _ _ _ _ h.memWf
  memReal x hx := by
    rcases mem_storeBytes _ _ _ _ _ hx with hold | hnew
    · exact h.memReal x hold
    · rw [(access_within n pa x.1 hnew).2, ofNat_word]
      exact hr

theorem Inv.writeMmuData {c : Config} {s : State} (h : Inv c s) (d : Word) : Inv c (writeMmuData c d s) := by
  have hmmu := mmuOk_writeMmuData c d s h.mmuOk
  rw [writeMmuData_frame]
  exact { h with mmuOk := hmmu }

/-- A present coprocessor whose state is replaced, the registers it lacks left out. -/
theorem Inv.setUnit {c : Config} {s : State} (h : Inv c s) {n : BitVec 3} (hn : present c n = true) (u : CoUnit) :
    Inv c (setUnit c n u s) := by
  have hn0 : n ≠ 0#3 := ne_zero_of_present hn
  have hget (i : Fin 7) :
      (Machine.setUnit c n u s).co[i] = if n.toNat - 1 = i.val then restrictUnit c n u else s.co[i] := by
    simp [Vector.getElem_setIfInBounds]
  refine { h with coRestricted := fun i => ?_, coAbsent := fun i habs => ?_ }
  · rw [hget]
    split
    · next hi => rw [coNumberAt_of_index hn0 i hi, restrictUnit_idem]
    · exact h.coRestricted i
  · rw [hget]
    split
    · next hi => rw [coNumberAt_of_index hn0 i hi, hn] at habs; cases habs
    · exact h.coAbsent i habs

/-- A write of COSTAT makes new contents for present coprocessors only (41_coprocessor.md R146). -/
theorem Inv.writeCostat {c : Config} {s : State} (h : Inv c s) (v : Word) : Inv c (writeCostat c v s) := by
  have hget (i : Fin 7) : (Machine.writeCostat c v s).co[i] =
      if present c (coNumberAt i) = true ∧ enabledIn s.costat (coNumberAt i) ≠ enabledIn v (coNumberAt i) then
        restrictUnit c (coNumberAt i) (c.coAny (s.draws + i.val)) else s.co[i] := by
    simp [Machine.writeCostat]
  refine { h with costatUnused := ?_, coRestricted := fun i => ?_, coAbsent := fun i habs => ?_ }
  · rw [writeCostat_costat, BitVec.and_assoc, BitVec.and_not_self]
    exact BitVec.and_zero
  · rw [hget]
    split
    · exact restrictUnit_idem ..
    · exact h.coRestricted i
  · rw [hget, if_neg (by simp [habs])]
    exact h.coAbsent i habs

theorem Inv.writeSpecial {c : Config} {r : SpecialReg} {v : Word} {u : Unit} {w w' : Work} (h : Inv c w.st)
    (hw : writeSpecial c r v w = .ok u w') : Inv c w'.st := by
  obtain ⟨-, rfl⟩ := writeSpecial_eq_ok.1 hw
  cases r with
  | psw => exact h.setPsw (pswUnused_and c v)
  | mmudata => exact h.writeMmuData v
  | tpc | tma | tsv | cyc => exact h.withRest ..

/-- Trap entry goes to an even vector and touches used bits of the PSW only (60_exceptions.md R182, R183). -/
theorem Inv.takeTrap {c : Config} {s : State} (h : Inv c s) (t : Trap) (start : Word) :
    Inv c (takeTrap c t start s) :=
  { h with
    pcEven := getLsbD_trapVector_zero c (trapKind t)
    pswUnused := pswUnused_withLevel _ (pswUnused_withPrior _ h.pswUnused) }

theorem Inv.abandon {c : Config} {s : State} (h : Inv c s) (t : Trap) (start : Word) (w : Work) :
    Inv c (abandon c t start s w) :=
  (h.withRest ..).takeTrap t start

/-! ### Every instruction, and every step -/

theorem Inv.work {c : Config} {i : Instr} {w w' : Work} {u : Unit} (h : Inv c w.st)
    (hw : workIn c i w = .ok u w') : Inv c w'.st :=
  work_induct (P := fun w => Inv c w.st) (Q := fun w => Inv c w.st) i
    (fun _ _ => writesOnly_true _)
    (hdone := fun _ h => h)
    (hskip := fun n _ h => (h.advance n).withRest ..)
    (hdraw := fun _ h => h.withRest ..)
    (hunit := fun _ _ u hn h => h.setUnit hn u)
    (hcostat := fun _ v h => h.writeCostat v)
    (hpc := fun _ _ ht h => h.setPc ht)
    (hreg := fun _ n v h => h.writeReg n v)
    (hcc := fun _ cc h => h.setPsw (pswUnused_withCC cc h.pswUnused))
    (hread := fun _ _ _ _ _ h => h.withRest ..)
    (hstore := fun _ _ _ n v _ hr h => (h.withRest ..).storeBytes hr n v)
    (hnext := fun _ _ _ _ h => (h.advance 1).withRest ..)
    (hbcd := fun _ v _ h => h.setPsw (pswUnused_withBcd v h.pswUnused))
    (hspecial := fun _ _ _ _ _ _ hw h => h.writeSpecial hw)
    (hreturn := fun _ _ _ ht h =>
      (h.setPc ht).setPsw (pswUnused_withLevel _ (pswUnused_withPrior _ h.pswUnused)))
    h hw

theorem Inv.exec {c : Config} {i : Instr} {s t : State} (h : Inv c s) (ht : execIn c i s = .next t) : Inv c t := by
  obtain ⟨w, u, hw, rfl⟩ | ⟨tr, w, rfl⟩ := exec_cases ht
  · exact Inv.work h hw
  · exact h.abandon ..

/-- A fetch that succeeds advances by the halfword, counts, and loads `ir` (40_instruction_cycle.md R121, R122). -/
theorem fetch_ok_state {c : Config} {s : State} {hw : Halfword} {w : Work} (h : fetch c s = .ok hw w) :
    w.st = { s with pc := s.pc + 2#32, cyc := s.cyc + 1#32, ir := hw } := by
  obtain ⟨v, w1, h1, h2⟩ := andThen_eq_ok.1 h
  obtain ⟨rfl, rfl⟩ := ok_eq_ok.1 h2
  obtain ⟨_, -, -, rfl, -⟩ := nextHalfword_eq_ok.1 h1
  rfl

theorem Inv.fetch {c : Config} {s : State} {hw : Halfword} {w : Work} (h : Inv c s)
    (hf : fetch c s = .ok hw w) : Inv c w.st := by
  rw [fetch_ok_state hf]
  exact (h.advance 1).withRest ..

/-- The ways a pass can end: an interrupt, a trap of the fetch, an invalid operation code, and the meaning of the
instruction fetched (40_instruction_cycle.md R123, R133). -/
theorem pass_eq_next {c : Config} {meaning : Instr → State → Host.Outcome State Fault Refusal} {s t : State}
    (h : pass c meaning s = .next t) :
    t = takeTrap c .interrupt s.pc s ∨ (∃ tr w, fetch c s = .trap tr w ∧ t = abandon c tr s.pc s w) ∨
      ∃ hw w, fetch c s = .ok hw w ∧
        (t = abandon c .invalidOpcode (instrStart w.st) w.st ⟨w.st, 0⟩ ∨ ∃ i, meaning i w.st = .next t) := by
  unfold pass at h
  split at h
  · cases h; exact .inl rfl
  · split at h
    · next tr w hf => cases h; exact .inr (.inl ⟨tr, w, hf, rfl⟩)
    · next hw w hf =>
      refine .inr (.inr ⟨hw, w, hf, ?_⟩)
      split at h
      · cases h; exact .inl rfl
      · next i _ _ => exact .inr ⟨i, h⟩

theorem Inv.pass {c : Config} {s t : State} (h : Inv c s) (ht : pass c (execIn c) s = .next t) : Inv c t := by
  obtain rfl | ⟨tr, w, -, rfl⟩ | ⟨hw, w, hf, rfl | ⟨i, hi⟩⟩ := pass_eq_next ht
  · exact h.takeTrap ..
  · exact h.abandon ..
  · exact (h.fetch hf).abandon ..
  · exact (h.fetch hf).exec hi

theorem mapNext_eq_next {f : State → State} {o : Host.Outcome State Fault Refusal} {t : State}
    (h : mapNext f o = .next t) : ∃ s, o = .next s ∧ t = f s := by
  cases o <;> cases h
  exact ⟨_, rfl, rfl⟩

/-- Settles O55: a pass keeps the invariant however it ends, and the requests that come in after it are no part of
it. -/
theorem stepKeepsTheInvariant : Obligations.StepKeepsTheInvariant := by
  refine everyStep_of fun c s t h ht => ?_
  obtain ⟨s', hs', rfl⟩ := mapNext_eq_next ht
  exact (h.pass hs').withRest ..

end Sys2Proof.Machine
end

section
/-! What unprivileged code leaves alone. As long as an instruction has not trapped it stays in code that is not
privileged, and there every primitive that could reach TPC, TMA, TSV or the mapping registers traps. -/

namespace Sys2Proof.Machine

open Sys2Proof

/-- Who is privileged hangs on the level alone (42_special_register_access.md R158). -/
theorem inPrivileged_of_level_eq (c : Config) {s t : State} (h : levelOf t.psw = levelOf s.psw) :
    inPrivileged c t = inPrivileged c s := by
  rw [inPrivileged, inPrivileged, h]

/-- An instruction of unprivileged code, in progress since `s`: still unprivileged, and nothing privileged changed. -/
structure UnprivilegedSince (c : Config) (s : State) (w : Work) : Prop where
  unprivileged : inPrivileged c w.st = false
  keeps : KeepsPrivileged s w.st

theorem UnprivilegedSince.start {c : Config} {s : State} (h : inPrivileged c s = false) :
    UnprivilegedSince c s ⟨s, 0⟩ :=
  ⟨h, ⟨rfl, rfl, rfl, rfl⟩⟩

/-- An update that keeps the level and the privileged registers goes on as before. -/
theorem UnprivilegedSince.next {c : Config} {s : State} {w w' : Work} (h : UnprivilegedSince c s w)
    (hlevel : levelOf w'.st.psw = levelOf w.st.psw) (hkeeps : KeepsPrivileged w.st w'.st) :
    UnprivilegedSince c s w' where
  unprivileged := (inPrivileged_of_level_eq c hlevel).trans h.unprivileged
  keeps := ⟨hkeeps.tpc.trans h.keeps.tpc, hkeeps.tma.trans h.keeps.tma, hkeeps.tsv.trans h.keeps.tsv,
    hkeeps.mmu.trans h.keeps.mmu⟩

theorem keepsPrivileged_writeReg (s : State) (n : Nibble) (v : Word) : KeepsPrivileged s (writeReg s n v) where
  tpc := writeReg_tpc s n v
  tma := writeReg_tma s n v
  tsv := writeReg_tsv s n v
  mmu := writeReg_mmu s n v

/-- The one write of a special register that unprivileged code completes is of the PSW, with its own level in it
(42_special_register_access.md R151, R158). -/
theorem UnprivilegedSince.writeSpecial {c : Config} {s : State} {r : SpecialReg} {v : Word} {u : Unit} {w w' : Work}
    (h : UnprivilegedSince c s w) (hw : writeSpecial c r v w = .ok u w') : UnprivilegedSince c s w' := by
  obtain ⟨hpriv | ⟨rfl, hsame⟩, rfl⟩ := writeSpecial_eq_ok.1 hw
  · rw [h.unprivileged] at hpriv
    cases hpriv
  · exact h.next ((levelOf_and_pswMask c v).trans ((level_prior_iff v _).1 hsame).1) ⟨rfl, rfl, rfl, rfl⟩

theorem UnprivilegedSince.work {c : Config} {i : Instr} {s : State} {w w' : Work} {u : Unit}
    (h : UnprivilegedSince c s w) (hw : workIn c i w = .ok u w') : UnprivilegedSince c s w' :=
  work_induct (P := UnprivilegedSince c s) (Q := UnprivilegedSince c s) i
    (fun _ _ => writesOnly_true _)
    (hdone := fun _ h => h)
    (hskip := fun _ _ h => h.next rfl ⟨rfl, rfl, rfl, rfl⟩)
    (hdraw := fun _ h => h.next rfl ⟨rfl, rfl, rfl, rfl⟩)
    (hunit := fun _ _ _ _ h => h.next rfl ⟨rfl, rfl, rfl, rfl⟩)
    (hcostat := fun _ _ h => h.next rfl ⟨rfl, rfl, rfl, rfl⟩)
    (hpc := fun _ _ _ h => h.next rfl ⟨rfl, rfl, rfl, rfl⟩)
    (hreg := fun w n v h =>
      h.next (congrArg levelOf (writeReg_psw w.st n v)) (keepsPrivileged_writeReg w.st n v))
    (hcc := fun w cc h => h.next (levelOf_withCC w.st.psw cc) ⟨rfl, rfl, rfl, rfl⟩)
    (hread := fun _ _ _ _ _ h => h.next rfl ⟨rfl, rfl, rfl, rfl⟩)
    (hstore := fun _ _ _ _ _ _ _ h => h.next rfl ⟨rfl, rfl, rfl, rfl⟩)
    (hnext := fun _ _ _ _ h => h.next rfl ⟨rfl, rfl, rfl, rfl⟩)
    (hbcd := fun w v _ h => h.next (levelOf_withBcd c w.st.psw v) ⟨rfl, rfl, rfl, rfl⟩)
    (hspecial := fun _ _ _ _ _ _ hw h => h.writeSpecial hw)
    (hreturn := fun _ _ hpriv _ h => by rw [h.unprivileged] at hpriv; cases hpriv)
    h hw

/-- Settles O51: an instruction that does not trap has been unprivileged all along. -/
theorem unprivilegedCodeKeepsPrivilegedRegisters : Obligations.UnprivilegedCodeKeepsPrivilegedRegisters := by
  refine everyMachine_of fun c i s t hs ht => ?_
  obtain ⟨w, u, hw, rfl⟩ | htrap := exec_cases ht
  · exact .inr ((UnprivilegedSince.start hs).work hw).keeps
  · exact .inl htrap

end Sys2Proof.Machine
end

section
/-! What an instruction in progress does to COSTAT and the coprocessors, to `cyc` and to TSV, and with the entry of its
trap what the whole instruction does to them. -/

namespace Sys2Proof.Machine

open Sys2Proof

/-! ### COSTAT and the coprocessors -/

/-- COSTAT and the coprocessors are as in `s`. -/
structure KeepsCoprocessors (s t : State) : Prop where
  costat : t.costat = s.costat
  co : t.co = s.co

theorem KeepsCoprocessors.trans {s t t' : State} (h : KeepsCoprocessors s t) (h' : KeepsCoprocessors t t') :
    KeepsCoprocessors s t' :=
  ⟨h'.costat.trans h.costat, h'.co.trans h.co⟩

/-- No primitive of an operation is for COSTAT or a coprocessor (10_state.md R30, 20_memory.md R66). -/
theorem KeepsCoprocessors.run {c : Config} {add : Bool} {s : State} {m : Nat} {p : Program m} {w w' : Work}
    {u : Unit} (h : KeepsCoprocessors s w.st) (hw : run c add p w = .ok u w') : KeepsCoprocessors s w'.st :=
  run_ok_induct (P := fun w => KeepsCoprocessors s w.st) (Q := fun w => KeepsCoprocessors s w.st)
    (hdone := fun _ h => h)
    (hreg := fun w n v h => h.trans ⟨writeReg_costat w.st n v, writeReg_co w.st n v⟩)
    (hpc := fun _ _ _ h => h.trans ⟨rfl, rfl⟩)
    (hread := fun _ _ _ _ _ h => h.trans ⟨rfl, rfl⟩)
    (hstore := fun _ _ _ _ _ _ _ h => h.trans ⟨rfl, rfl⟩)
    (hnext := fun _ _ _ _ h => h.trans ⟨rfl, rfl⟩)
    (hcc := fun _ _ h => h.trans ⟨rfl, rfl⟩)
    (hbcd := fun _ _ _ h => h.trans ⟨rfl, rfl⟩)
    (hdraw := fun _ h => h.trans ⟨rfl, rfl⟩)
    (hspecial := fun _ _ _ _ _ _ hw h => h.trans ⟨writeSpecial_ok_costat hw, writeSpecial_ok_co hw⟩)
    (hreturn := fun _ _ _ _ h => h.trans ⟨rfl, rfl⟩)
    p (writesOnly_true p) h hw

/-- Settles O47: the run of the operation keeps them, and so does the entry of its trap. -/
theorem onlyCoprocessorInstructionsReachCoprocessors :
    Obligations.OnlyCoprocessorInstructionsReachCoprocessors := by
  refine everyMachine_of fun c f s t ht => ?_
  obtain ⟨w, u, hw, rfl⟩ | ⟨tr, w, rfl⟩ := exec_cases ht
  · have hkeeps : KeepsCoprocessors s w.st := KeepsCoprocessors.run ⟨rfl, rfl⟩ hw
    exact ⟨hkeeps.costat, hkeeps.co⟩
  · exact ⟨abandon_costat .., abandon_co ..⟩

/-! ### The cycle counter -/

/-- `cyc` is ahead of `s` by the memory operations counted so far. -/
def CycCounts (s : State) (w : Work) : Prop := w.st.cyc = s.cyc + BitVec.ofNat 32 w.ops

/-- An update that moves `cyc` and the count by the same number. -/
theorem CycCounts.add {s : State} {w w' : Work} (h : CycCounts s w) (n : Nat)
    (hcyc : w'.st.cyc = w.st.cyc + BitVec.ofNat 32 n) (hops : w'.ops = w.ops + n) : CycCounts s w' := by
  rw [CycCounts, hcyc, hops, h, BitVec.ofNat_add, BitVec.add_assoc]

/-- An update that moves neither. -/
theorem CycCounts.keep {s : State} {w w' : Work} (h : CycCounts s w) (hcyc : w'.st.cyc = w.st.cyc)
    (hops : w'.ops = w.ops) : CycCounts s w' :=
  (hcyc.trans h).trans (congrArg (fun n => s.cyc + BitVec.ofNat 32 n) hops.symm)

theorem CycCounts.work {c : Config} {i : Instr} {s : State} {w w' : Work} {u : Unit} (h : CycCounts s w)
    (hi : ∀ f, i = .anyInstructionHalfword f → writesOnly (· ≠ .cyc) (c.operation f).program)
    (hw : workIn c i w = .ok u w') : CycCounts s w' :=
  work_induct (P := CycCounts s) (Q := CycCounts s) i hi
    (hdone := fun _ h => h)
    (hskip := fun n _ h => h.add n rfl rfl)
    (hdraw := fun _ h => h.keep rfl rfl)
    (hunit := fun _ _ _ _ h => h.keep rfl rfl)
    (hcostat := fun _ _ h => h.keep rfl rfl)
    (hpc := fun _ _ _ h => h.keep rfl rfl)
    (hreg := fun w n v h => h.keep (writeReg_cyc w.st n v) rfl)
    (hcc := fun _ _ h => h.keep rfl rfl)
    (hread := fun _ _ _ _ _ h => h.add 1 rfl rfl)
    (hstore := fun _ _ _ _ _ _ _ h => h.add 1 rfl rfl)
    (hnext := fun _ _ _ _ h => h.add 1 rfl rfl)
    (hbcd := fun _ _ _ h => h.keep rfl rfl)
    (hspecial := fun _ _ _ _ _ hr hw h => h.keep (writeSpecial_ok_cyc hr hw) (writeSpecial_ok_ops hw))
    (hreturn := fun _ _ _ _ h => h.keep rfl rfl)
    h hw

/-- Settles O49: on completion by the count that the work keeps, on a trap by what its entry does to `cyc`. -/
theorem cycCountsMemoryOperations : Obligations.CycCountsMemoryOperations := by
  refine everyMachine_of fun c i s hi => ⟨_, execIn_eq_finish c i s, fun u w hw => ?_, fun tr w hw => ?_⟩
  · have hstart : CycCounts s ⟨s, 0⟩ := (BitVec.add_zero s.cyc).symm
    rw [hw, finish_ok]
    exact hstart.work hi hw
  · rw [hw, finish_trap, abandon_cyc]

/-! ### The trap save register -/

/-- An instruction in progress without a write of TSV leaves it. -/
theorem work_keeps_tsv {c : Config} {i : Instr} {w w' : Work} {u : Unit}
    (hi : ∀ f, i = .anyInstructionHalfword f → writesOnly (· ≠ .tsv) (c.operation f).program)
    (hw : workIn c i w = .ok u w') : w'.st.tsv = w.st.tsv :=
  work_induct (P := fun w' => w'.st.tsv = w.st.tsv) (Q := fun w' => w'.st.tsv = w.st.tsv) i hi
    (hdone := fun _ h => h)
    (hskip := fun _ _ h => h)
    (hdraw := fun _ h => h)
    (hunit := fun _ _ _ _ h => h)
    (hcostat := fun _ _ h => h)
    (hpc := fun _ _ _ h => h)
    (hreg := fun w n v h => (writeReg_tsv w.st n v).trans h)
    (hcc := fun _ _ h => h)
    (hread := fun _ _ _ _ _ h => h)
    (hstore := fun _ _ _ _ _ _ _ h => h)
    (hnext := fun _ _ _ _ h => h)
    (hbcd := fun _ _ _ h => h)
    (hspecial := fun _ _ _ _ _ hr hw h => (writeSpecial_ok_tsv hr hw).trans h)
    (hreturn := fun _ _ _ _ h => h)
    rfl hw

/-- Settles O50: the work keeps TSV, and no trap entry writes it. -/
theorem tsvIsChangedBySoftwareOnly : Obligations.TsvIsChangedBySoftwareOnly := by
  refine everyMachine_of fun c i s t hi ht => ?_
  obtain ⟨w, u, hw, rfl⟩ | ⟨tr, w, rfl⟩ := exec_cases ht
  · exact work_keeps_tsv hi hw
  · exact abandon_tsv ..

end Sys2Proof.Machine
end

section
/-! The odd target, and the active coprocessor. -/

namespace Sys2Proof.Machine

open Sys2Proof

/-! ### The odd target (10_state.md R27) -/

/-- An operation that goes on to set the pc to an odd value is in the bus trap with cause 01. -/
theorem run_setPc_odd {c : Config} {add : Bool} {m : Nat} {t : Word} (ht : t.getLsbD 0 = true) (p : Program m)
    (w : Work) : run c add (.setPc t p) w = .trap (.bus t 1#2) w := by
  rw [run, setPc_odd c ht, andThen_of_trap]

/-- Both forms of an instruction that sets the pc first of all, to a fixed value and to one computed from a register. -/
theorem workIn_setPc_odd {c : Config} {f : IrFields} {s : State} {target : Word} {n : Nat}
    (hop : (∃ p, c.operation f = ⟨n, .setPc target p⟩) ∨
      ∃ (a : Nibble) (z : ZeroReading) (g : Word → Word) (p : Word → Program n),
        c.operation f = ⟨n, .readReg a z fun x => .setPc (g x) (p x)⟩ ∧ target = g (readReg s a z))
    (hodd : target.getLsbD 0 = true) :
    workIn c (.anyInstructionHalfword f) ⟨s, 0⟩ = .trap (.bus target 1#2) ⟨s, 0⟩ := by
  obtain ⟨p, hfixed⟩ | ⟨a, z, g, p, hreg, rfl⟩ := hop
  · rw [workIn_other hfixed, run_setPc_odd hodd]
  · rw [workIn_other hreg, run, run_setPc_odd hodd]

/-- A trap of an instruction that has done nothing yet: only what trap entry writes changes. -/
theorem abandon_at_start (c : Config) (tr : Trap) (start : Word) (s : State) :
    abandon c tr start s ⟨s, 0⟩ = takeTrap c tr start s := by
  rw [abandon, BitVec.add_zero]

/-- Settles O24: `setPc` by its two rules, and the instruction by the entry of its trap. -/
theorem oddTargetTraps : Obligations.OddTargetTraps := by
  refine ⟨fun c t w => ⟨fun ht => setPc_odd c ht w, fun ht => setPc_even c ht w⟩,
    everyMachine_of fun c f s target n hop hodd => ?_⟩
  refine ⟨takeTrap c (.bus target 1#2) (s.pc - 2#32) s, ?_, rfl, rfl, rfl, rfl⟩
  rw [execIn_eq_finish, workIn_setPc_odd hop hodd, finish_trap, abandon_at_start, instrStart]

/-! ### The active coprocessor (10_state.md R34) -/

/-- Settles O30: an active coprocessor is the one that COSTAT selects, and COSTAT selects one. -/
theorem atMostOneCoprocessorIsActive : Obligations.AtMostOneCoprocessorIsActive := by
  intro c costat m n hm hn
  obtain ⟨-, -, hselm⟩ := coStateOf_eq_active.1 hm
  obtain ⟨hpresent, -, hseln⟩ := coStateOf_eq_active.1 hn
  exact ⟨hselm.symm.trans hseln, hseln.symm, ne_zero_of_present hpresent⟩

end Sys2Proof.Machine
end

section
/-! Translation (spec/20_memory.md R74, R76, R77): a rule for the unit off and one for each answer of a mapping register
while it is on. -/

namespace Sys2Proof.Machine

open Sys2Proof

/-! ### A page and an offset in it -/

theorem toNat_pageOf (a : Word) : (pageOf a).toNat = a.toNat / 4096 := by
  have := a.isLt
  simp only [pageOf, BitVec.extractLsb'_toNat, Nat.shiftRight_eq_div_pow]
  omega

/-- An address is a page and an offset, and no address but one has them. -/
theorem eq_page_append_offset_iff (a : Word) (p : BitVec 20) (o : BitVec 12) :
    a = p ++ o ↔ pageOf a = p ∧ a.extractLsb' 0 12 = o := by
  constructor
  · rintro rfl
    exact ⟨pageOf_append p o, BitVec.extractLsb'_append_eq_right⟩
  · rintro ⟨rfl, rfl⟩
    have hjoin := BitVec.extractLsb'_append_extractLsb'_eq_extractLsb' (x := a) (Nat.zero_add 12).symm (len₂ := 20)
    exact (hjoin.trans BitVec.extractLsb'_eq_self).symm

/-! ### One rule per case of `Translate` -/

section

variable {c : Config} {kind : AccessKind} {va : Word} {s : State}

theorem translate_unit_off (hoff : unitOn s.psw = false) : translate c kind va s = .ok va := by
  rw [translate, hoff]
  rfl

theorem translate_of_no_match (hon : unitOn s.psw = true) (hnone : lookupPage s.mmu (pageOf va) = none) :
    translate c kind va s = .error (.mmu va (c.mmuCause .nomatch)) := by
  rw [translate, if_pos hon, hnone]

theorem translate_of_invalid {e : MapEntry} (hon : unitOn s.psw = true)
    (he : lookupPage s.mmu (pageOf va) = some e) (hv : e.v = false) :
    translate c kind va s = .error (.mmu va (c.mmuCause .invalid)) := by
  simp only [translate, if_pos hon, he, hv, Bool.false_eq_true, if_false]

theorem translate_of_valid {e : MapEntry} (hon : unitOn s.psw = true)
    (he : lookupPage s.mmu (pageOf va) = some e) (hv : e.v = true) :
    translate c kind va s =
      if allowed e kind then .ok (e.ppn ++ va.extractLsb' 0 12)
      else .error (.mmu va (c.mmuCause (rightsReason kind))) := by
  simp only [translate, if_pos hon, he, hv, if_true]

theorem translate_of_forbidden {e : MapEntry} (hon : unitOn s.psw = true)
    (he : lookupPage s.mmu (pageOf va) = some e) (hv : e.v = true) (hno : allowed e kind = false) :
    translate c kind va s = .error (.mmu va (c.mmuCause (rightsReason kind))) := by
  rw [translate_of_valid hon he hv, hno]
  rfl

/-- With the unit on, an address is translated by a valid mapping register of its page that allows the access. -/
theorem translate_on_eq_ok {pa : Word} (hon : unitOn s.psw = true) :
    translate c kind va s = .ok pa ↔
      ∃ e, lookupPage s.mmu (pageOf va) = some e ∧ e.v = true ∧ allowed e kind = true ∧
        pa = e.ppn ++ va.extractLsb' 0 12 := by
  constructor
  · intro h
    cases he : lookupPage s.mmu (pageOf va) with
    | none => rw [translate_of_no_match hon he] at h; cases h
    | some e =>
      cases hv : e.v with
      | false => rw [translate_of_invalid hon he hv] at h; cases h
      | true =>
        cases ha : allowed e kind with
        | false => rw [translate_of_forbidden hon he hv ha] at h; cases h
        | true =>
          rw [translate_of_valid hon he hv, if_pos ha] at h
          cases h
          exact ⟨e, rfl, hv, ha, rfl⟩
  · rintro ⟨e, he, hv, ha, rfl⟩
    rw [translate_of_valid hon he hv, if_pos ha]

end

/-- Translation reads the PSW and the mapping registers, no more. -/
theorem translate_congr (c : Config) (kind : AccessKind) (va : Word) {s t : State} (hpsw : t.psw = s.psw)
    (hmmu : t.mmu = s.mmu) : translate c kind va t = translate c kind va s := by
  rw [translate, translate, hpsw, hmmu]

/-- Settles O15: the rule of each case. -/
theorem translationFollowsTheMappingRegister : Obligations.TranslationFollowsTheMappingRegister := by
  refine fun c kind va s => ⟨translate_unit_off, fun hon => ⟨fun pa => ?_, translate_of_no_match hon,
    fun e he hv => translate_of_invalid hon he hv, fun e he hv => ⟨?_, ?_, ?_⟩⟩⟩
  · simp only [translate_on_eq_ok hon, eq_page_append_offset_iff]
    cases kind <;> rfl
  · exact translate_of_forbidden (kind := .fetch) hon he hv
  · exact translate_of_forbidden (kind := .load) hon he hv
  · exact translate_of_forbidden (kind := .store) hon he hv

end Sys2Proof.Machine
end

section
/-! Memory: the three views of it (spec/20_memory.md R63 to R65), and what `MemRead` and `MemWrite` answer, change and
refuse (R70, R72, R73, R86). -/

namespace Sys2Proof.Machine

open Sys2Proof

/-! ### The three views -/

theorem toNat_wordOf (a : Word) : (wordOf a).toNat = a.toNat / 4 := by
  have := a.isLt
  simp only [wordOf, BitVec.extractLsb'_toNat, Nat.shiftRight_eq_div_pow]
  omega

theorem toNat_byteOf (a : Word) : (byteOf a).toNat = a.toNat % 4 := by
  simp [byteOf]

/-- Which half of its word an address refers to (R65). -/
theorem toNat_halfOf (a : Word) : (a.extractLsb' 1 1).toNat = a.toNat / 2 % 2 := by
  simp [Nat.shiftRight_eq_div_pow]

/-- Byte k of a word of memory is the byte at the k-th address of it (R64, R67). -/
theorem extractLsb'_memoryWord (m : Memory) (w : BitVec 30) {k : Nat} (hk : k < 4) :
    (memoryWord m w).extractLsb' (8 * k) 8 = readByte m (4 * w.toNat + k) := by
  refine BitVec.eq_of_getLsbD_eq fun i hi => ?_
  simp only [memoryWord, BitVec.getLsbD_extractLsb', BitVec.getLsbD_append]
  interval_cases k <;> interval_cases i <;> simp

/-- Two bytes side by side in a word are the halfword there. -/
theorem append_bytes_eq_half (x : Word) (h : Nat) :
    x.extractLsb' (8 * (2 * h + 1)) 8 ++ x.extractLsb' (8 * (2 * h)) 8 = x.extractLsb' (16 * h) 16 := by
  rw [show 16 * h = 8 * (2 * h) by omega]
  exact BitVec.extractLsb'_append_extractLsb'_eq_extractLsb' (by omega)

theorem loadBytes_word (m : Memory) (a : Word) : loadBytes m a .word = memoryWord m (wordOf a) := by
  rw [memoryWord, toNat_wordOf]
  rfl

theorem loadBytes_half (m : Memory) (a : Word) :
    loadBytes m a .half =
      ((memoryWord m (wordOf a)).extractLsb' (16 * (a.extractLsb' 1 1).toNat) 16).zeroExtend 32 := by
  have hbase : accessBase .half a = 4 * (wordOf a).toNat + 2 * (a.extractLsb' 1 1).toNat := by
    rw [toNat_wordOf, toNat_halfOf, accessBase]
    omega
  have hlt : (a.extractLsb' 1 1).toNat < 2 := (a.extractLsb' 1 1).isLt
  rw [← append_bytes_eq_half, extractLsb'_memoryWord _ _ (by omega), extractLsb'_memoryWord _ _ (by omega),
    ← Nat.add_assoc, ← hbase]
  rfl

theorem loadBytes_byte (m : Memory) (a : Word) :
    loadBytes m a .byte =
      ((memoryWord m (wordOf a)).extractLsb' (8 * (byteOf a).toNat) 8).zeroExtend 32 := by
  have hbase : accessBase .byte a = 4 * (wordOf a).toNat + (byteOf a).toNat := by
    rw [toNat_wordOf, toNat_byteOf, accessBase]
    omega
  rw [extractLsb'_memoryWord _ _ (byteOf a).isLt, ← hbase]
  rfl

/-- Settles O10: each view as a slice of the word. -/
theorem threeViewsOfMemory : Obligations.ThreeViewsOfMemory :=
  fun m a => ⟨loadBytes_word m a, loadBytes_half m a, loadBytes_byte m a⟩

/-! ### `MemRead` and `MemWrite` of real memory -/

/-- Settles O11: the one way a read can succeed. -/
theorem memReadAnswers : Obligations.MemReadAnswers :=
  fun _ _ _ pa _ _ ht hr => memRead_eq_ok.2 ⟨pa, ht, hr, rfl, rfl⟩

/-- Settles O12: the one way a write can succeed, and what its store reaches. -/
theorem memWriteStores : Obligations.MemWriteStores :=
  fun _ _ pa n v w ht hr => ⟨_, memWrite_eq_ok.2 ⟨pa, ht, hr, rfl⟩,
    readByte_storeBytes_inside w.st.mem pa n v, readByte_storeBytes_outside w.st.mem pa n v, rfl, rfl⟩

/-- A load of what a store of the same width reached. -/
theorem loadBytes_storeBytes_eq_lowPart (m : Memory) (pa : Word) (n : Width) (v : Word) :
    loadBytes (storeBytes m pa n v) pa n = lowPart n v := by
  rw [loadBytes_storeBytes]
  cases n <;> rfl

/-- Settles O13: a write leaves the translation as it was, so the load reaches the bytes it stored. -/
theorem loadAfterStoreGivesTheValue : Obligations.LoadAfterStoreGivesTheValue := by
  intro c va n v w w' u hw hsame
  obtain ⟨pa, ht, hr, rfl⟩ := memWrite_eq_ok.1 hw
  refine ⟨_, memRead_eq_ok.2 ⟨pa, ?_, hr, rfl, (loadBytes_storeBytes_eq_lowPart w.st.mem pa n v).symm⟩⟩
  exact (translate_congr c .load va rfl rfl).trans (hsame.trans ht)

/-! ### Memory that does not exist -/

@[simp] theorem countFaulting_mem (c : Config) (w : Work) : (countFaulting c w).st.mem = w.st.mem := by
  obtain h | h := countFaulting_cases c w <;> rw [h]
  rfl

theorem countFaulting_ops (c : Config) (w : Work) :
    (countFaulting c w).ops = if c.cycCountsFaulting then w.ops + 1 else w.ops := by
  unfold countFaulting
  split <;> rfl

/-- An access of a word that does not exist is the bus trap (R72). -/
theorem access_nonexistent {c : Config} {kind : AccessKind} {va pa : Word} {w : Work}
    (hr : c.real (wordOf pa) = false) (ht : translate c kind va w.st = .ok pa) :
    access c kind va w =
      .trap (.bus (if c.busTmaVirtual then va else pa) (busCause c .nonexistent)) (countFaulting c w) :=
  access_eq_trap.2 ⟨rfl, .inr ⟨pa, ht, hr, rfl⟩⟩

/-- Settles O14: the trap of the access is that of the read and of the write. -/
theorem nonexistentMemoryTraps : Obligations.NonexistentMemoryTraps :=
  fun c _ _ _ _ _ w hr =>
    ⟨fun ht => ⟨_, memRead_eq_trap.2 (access_nonexistent hr ht), countFaulting_mem c w, countFaulting_ops c w⟩,
      fun ht => ⟨_, memWrite_eq_trap.2 (access_nonexistent hr ht), countFaulting_mem c w, countFaulting_ops c w⟩⟩

end Sys2Proof.Machine
end

section
/-! MMUDATA: what a write of it makes of the mapping registers (spec/20_memory.md R81 to R84), and what a read of it
shows (R80). -/

namespace Sys2Proof.Machine

open Sys2Proof

/-! ### A write with G = 0 -/

theorem wordEntry_vpn (p : BitVec 20) (d : Word) : (wordEntry p d).vpn = p := rfl

theorem lookupPage_cons_same (e : MapEntry) (mmu : List MapEntry) : lookupPage (e :: mmu) e.vpn = some e :=
  List.find?_cons_of_pos (by simp)

/-- The page that TMA selects has the new entry. -/
theorem lookupPage_writeMmuData_local (c : Config) {d : Word} (s : State) (hg : d.getLsbD 5 = false) :
    lookupPage (writeMmuData c d s).mmu (pageOf s.tma) = some (wordEntry (pageOf s.tma) d) := by
  rw [writeMmuData_local c s hg]
  exact lookupPage_cons_same (wordEntry (pageOf s.tma) d) _

/-- An entry of another page that is there after the write was there before. -/
theorem mem_of_mem_writeMmuData_local {c : Config} {d : Word} {s : State} (hg : d.getLsbD 5 = false) {e : MapEntry}
    (he : e ∈ (writeMmuData c d s).mmu) (hp : e.vpn ≠ pageOf s.tma) : e ∈ s.mmu := by
  rw [writeMmuData_local c s hg] at he
  rcases List.mem_cons.1 he with rfl | hkept
  · exact absurd (wordEntry_vpn ..) hp
  · exact (List.mem_filter.1 ((evict_sublist ..).subset hkept)).1

/-- The element at one place is all that a list without that place can lack. -/
theorem getElem?_of_not_mem_eraseIdx {l : List MapEntry} {k : Nat} {e : MapEntry} (he : e ∈ l)
    (hlost : e ∉ l.eraseIdx k) : l[k]? = some e := by
  obtain ⟨i, hi⟩ := List.mem_iff_getElem?.1 he
  by_cases hik : i = k
  · rwa [← hik]
  · exact absurd (List.mem_eraseIdx_iff_getElem?.2 ⟨i, hik, hi⟩) hlost

/-- A replacement takes away what stands at one place. -/
theorem evict_eq_eraseIdx (c : Config) (pick : Nat) (rest : List MapEntry) :
    ∃ k, evict c pick rest = rest.eraseIdx k := by
  unfold evict
  split <;> exact ⟨_, rfl⟩

theorem evict_loses_one {c : Config} {pick : Nat} {rest : List MapEntry} {e e' : MapEntry} (he : e ∈ rest)
    (he' : e' ∈ rest) (hlost : e ∉ evict c pick rest) (hlost' : e' ∉ evict c pick rest) : e = e' := by
  obtain ⟨k, hk⟩ := evict_eq_eraseIdx c pick rest
  rw [hk] at hlost hlost'
  exact Option.some.inj
    ((getElem?_of_not_mem_eraseIdx he hlost).symm.trans (getElem?_of_not_mem_eraseIdx he' hlost'))

/-- An entry of another page that the write loses is the one replaced. -/
theorem lost_by_writeMmuData_local {c : Config} {d : Word} {s : State} (hg : d.getLsbD 5 = false) {e : MapEntry}
    (he : e ∈ s.mmu) (hp : e.vpn ≠ pageOf s.tma) (hlost : e ∉ (writeMmuData c d s).mmu) :
    e ∈ s.mmu.filter (fun e => e.vpn != pageOf s.tma) ∧
      e ∉ evict c (c.free s.draws).toNat (s.mmu.filter fun e => e.vpn != pageOf s.tma) := by
  rw [writeMmuData_local c s hg] at hlost
  exact ⟨List.mem_filter.2 ⟨he, bne_iff_ne.2 hp⟩, fun hkept => hlost (List.mem_cons_of_mem _ hkept)⟩

/-- Settles O16: the new entry stands first, and the others are those kept by the replacement. -/
theorem writeOfMmuDataAssociates : Obligations.WriteOfMmuDataAssociates := by
  intro c d s hg hok
  refine ⟨lookupPage_writeMmuData_local c s hg, mmuOk_writeMmuData c d s hok,
    fun e => mem_of_mem_writeMmuData_local hg, fun e he e' he' hp hp' hlost hlost' => ?_, ?_⟩
  · obtain ⟨hother, hgone⟩ := lost_by_writeMmuData_local hg he hp hlost
    obtain ⟨hother', hgone'⟩ := lost_by_writeMmuData_local hg he' hp' hlost'
    exact evict_loses_one hother hother' hgone hgone'
  · rw [writeMmuData_local c s hg]

/-! ### A write with G = 1 -/

/-- Anding rights keeps each entry with its page. -/
theorem lookupPage_map_andRights (d : Word) (mmu : List MapEntry) (p : BitVec 20) :
    lookupPage (mmu.map (andRights d)) p = (lookupPage mmu p).map (andRights d) :=
  List.find?_map

/-- Settles O17: every entry is anded in its place. -/
theorem globalWriteOfMmuDataAndsRights : Obligations.GlobalWriteOfMmuDataAndsRights := by
  intro c d s hg
  rw [writeMmuData_global c s hg]
  exact ⟨rfl, lookupPage_map_andRights d s.mmu⟩

/-- With the unit on and no valid mapping register, no address is translated. -/
theorem translate_of_all_invalid {t : State} (c : Config) (kind : AccessKind) (va : Word)
    (hon : unitOn t.psw = true) (hall : ∀ e ∈ t.mmu, e.v = false) :
    ∃ cause, translate c kind va t = .error (.mmu va cause) := by
  cases he : lookupPage t.mmu (pageOf va) with
  | none => exact ⟨_, translate_of_no_match hon he⟩
  | some e => exact ⟨_, translate_of_invalid hon he (hall e (lookupPage_eq_some he).1)⟩

/-- A write with G = 1 and V = 0 leaves no valid mapping register. -/
theorem invalid_of_mem_writeMmuData_global {c : Config} {d : Word} {s : State} (hg : d.getLsbD 5 = true)
    (hv : d.getLsbD 0 = false) {e : MapEntry} (he : e ∈ (writeMmuData c d s).mmu) : e.v = false := by
  rw [writeMmuData_global c s hg] at he
  obtain ⟨old, -, rfl⟩ := List.mem_map.1 he
  rw [andRights, hv, Bool.and_false]

/-- Settles O18: no valid mapping register is left to translate by. -/
theorem invalidateAllMappings : Obligations.InvalidateAllMappings := by
  intro c d s hg hv
  have hall : ∀ e ∈ (writeMmuData c d s).mmu, e.v = false := fun e => invalid_of_mem_writeMmuData_global hg hv
  exact ⟨hall, fun t kind va hon hmmu => translate_of_all_invalid c kind va hon (hmmu ▸ hall)⟩

/-! ### A read -/

/-- An entry is shown within the bits that a mapping register has. -/
theorem entryWord_and_mask (e : MapEntry) : entryWord e &&& mmuDataMask = entryWord e := by
  refine BitVec.eq_of_getLsbD_eq fun i hi => ?_
  simp only [entryWord]
  change BitVec.getLsbD (w := 20 + 12) _ _ = BitVec.getLsbD (w := 20 + 12) _ _
  simp only [BitVec.getLsbD_append, BitVec.getLsbD_and, mmuDataMask, BitVec.getLsbD_ofBool]
  interval_cases i <;> simp

/-- The free bits of a read leave those of the entry. -/
theorem readMmuData_of_match (c : Config) {s : State} {e : MapEntry}
    (he : lookupPage s.mmu (pageOf s.tma) = some e) : (readMmuData c s).1 &&& mmuDataMask = entryWord e := by
  have hfree (x : Word) : (x &&& ~~~mmuDataMask) &&& mmuDataMask = 0#32 := by
    rw [BitVec.and_assoc, BitVec.and_comm (~~~mmuDataMask), BitVec.and_not_self]
    exact BitVec.and_zero
  simp only [readMmuData, he, BitVec.and_or_distrib_right, entryWord_and_mask, hfree, BitVec.or_zero]

theorem readMmuData_of_no_match (c : Config) {s : State} (hnone : lookupPage s.mmu (pageOf s.tma) = none) :
    (readMmuData c s).1.getLsbD 0 = false := by
  simp [readMmuData, hnone]

theorem readMmuData_state (c : Config) (s : State) : (readMmuData c s).2 = { s with draws := s.draws + 1 } := by
  simp only [readMmuData]
  split <;> rfl

@[simp] theorem writeMmuData_tma (c : Config) (d : Word) (s : State) : (writeMmuData c d s).tma = s.tma := by
  rw [writeMmuData_frame]

/-- Settles O19: a read with and without a match; after a write with G = 0 the match is the entry written. -/
theorem readOfMmuDataShowsTheEntry : Obligations.ReadOfMmuDataShowsTheEntry := by
  refine fun c s => ⟨fun e => readMmuData_of_match c, readMmuData_of_no_match c, fun d hg => ?_, readMmuData_state c s⟩
  have hnew : lookupPage (writeMmuData c d s).mmu (pageOf (writeMmuData c d s).tma) =
      some (wordEntry (pageOf s.tma) d) := by
    rw [writeMmuData_tma, lookupPage_writeMmuData_local c s hg]
  rw [readMmuData_of_match c hnew, entryWord_wordEntry]

end Sys2Proof.Machine
end

section
/-! What a trap-service routine finds of the memory-management unit: the unit off (spec/20_memory.md R85), and after an
MMU trap the page that was refused (R79, R80). -/

namespace Sys2Proof.Machine

open Sys2Proof

/-- Settles O21: the level that trap entry gives has the unit off, and with it off translation is the identity. -/
theorem trapsTurnTheUnitOff : Obligations.TrapsTurnTheUnitOff := by
  intro c tr start s
  have hoff : unitOn (takeTrap c tr start s).psw = false := by
    rw [takeTrap_psw, unitOn_withLevel, getLsbD_trapLevel_three]
  exact ⟨hoff, fun _ _ => translate_unit_off hoff⟩

theorem inPrivileged_takeTrap (c : Config) (tr : Trap) (start : Word) (s : State) :
    inPrivileged c (takeTrap c tr start s) = true := by
  rw [inPrivileged, takeTrap_psw, levelOf_withLevel, privileged_trapLevel]

/-- The page of an address is in the 30 bits of it that TMA records (10_state.md R45). -/
theorem pageOf_record (va : Word) (cause : BitVec 2) : pageOf (va.extractLsb' 2 30 ++ cause) = pageOf va := by
  refine BitVec.eq_of_getLsbD_eq fun i hi => ?_
  have hpast : ¬12 + i < 2 := by omega
  have hwithin : 12 + i - 2 < 30 := by omega
  have hplace : 2 + (12 + i - 2) = 12 + i := by omega
  simp only [pageOf, BitVec.getLsbD_extractLsb', BitVec.getLsbD_append, hpast, hwithin, hplace, decide_true,
    Bool.true_and, if_false]

/-- Privileged code reads MMUDATA (42_special_register_access.md R158). -/
theorem readSpecial_mmudata {c : Config} {s : State} (hp : inPrivileged c s = true) (n : Nat) :
    readSpecial c .mmudata ⟨s, n⟩ = .ok (readMmuData c s).1 ⟨(readMmuData c s).2, n⟩ :=
  guardPrivilege_eq_ok.2 ⟨hp, rfl⟩

/-- Settles O20: TMA records the page, trap entry leaves the mapping registers and makes the code privileged. -/
theorem mmuTrapShowsTheRefusedPage : Obligations.MmuTrapShowsTheRefusedPage := by
  intro c va start cause s t
  have htma : t.tma = va.extractLsb' 2 30 ++ cause := rfl
  have hpage : lookupPage t.mmu (pageOf t.tma) = lookupPage s.mmu (pageOf va) := by
    rw [htma, pageOf_record]
    rfl
  exact ⟨BitVec.extractLsb'_append_eq_left, BitVec.extractLsb'_append_eq_right, hpage,
    readSpecial_mmudata (inPrivileged_takeTrap ..), fun e he => readMmuData_of_match c (hpage.trans he),
    fun hnone => readMmuData_of_no_match c (hpage.trans hnone)⟩

end Sys2Proof.Machine
end

section
/-! A load and a store instruction as a whole (spec/20_memory.md R73, 40_instruction_cycle.md R129): what the run of each
form gives, the operands in the fields or in registers. -/

namespace Sys2Proof.Machine

open Sys2Proof

/-- An instruction whose work completes ends in the state of the work. -/
theorem execIn_of_work_ok {c : Config} {i : Instr} {s : State} {u : Unit} {w : Work}
    (hw : workIn c i ⟨s, 0⟩ = .ok u w) : execIn c i s = .next w.st := by
  rw [execIn_eq_finish, hw, finish_ok]

/-! ### A load -/

/-- A load that succeeds, and then a write of the register. -/
theorem run_load_writeReg {c : Config} {add : Bool} {va pa : Word} {w : Work} (n : Width) (d : Nibble)
    (ht : translate c .load va w.st = .ok pa) (hr : c.real (wordOf pa) = true) :
    run c add (.load va n fun v => .writeReg d v .done) w =
      .ok () (updated (countOp w) fun s => writeReg s d (loadBytes w.st.mem pa n)) := by
  rw [run, memRead_eq_ok.2 ⟨pa, ht, hr, rfl, rfl⟩]
  rfl

/-- Both forms of a load instruction. -/
theorem workIn_load {c : Config} {f : IrFields} {s : State} {d : Nibble} {va pa : Word} {n : Width}
    (hop : c.operation f = ⟨0, .load va n fun v => .writeReg d v .done⟩ ∨
      ∃ (a : Nibble) (z : ZeroReading) (g : Word → Word),
        c.operation f = ⟨0, .readReg a z fun x => .load (g x) n fun v => .writeReg d v .done⟩ ∧
          va = g (readReg s a z))
    (ht : translate c .load va s = .ok pa) (hr : c.real (wordOf pa) = true) :
    workIn c (.anyInstructionHalfword f) ⟨s, 0⟩ =
      .ok () (updated (countOp ⟨s, 0⟩) fun t => writeReg t d (loadBytes s.mem pa n)) := by
  obtain hfixed | ⟨a, z, g, hreg, rfl⟩ := hop
  · rw [workIn_other hfixed, run_load_writeReg (w := ⟨s, 0⟩) n d ht hr]
  · rw [workIn_other hreg, run, run_load_writeReg (w := ⟨s, 0⟩) n d ht hr]

/-- A register write leaves every other register, the one written being number 0 or not. -/
theorem readStored_writeReg_ne (s : State) {m d : Nibble} (v : Word) (hm : m ≠ 0#4) (hne : m ≠ d) :
    readStored (writeReg s d v) m = readStored s m := by
  by_cases hd : d = 0#4
  · rw [hd, writeReg_zero]
  · rw [writeReg_ne_zero s d v hd, readStored_writeStored_ne s m d v hm hd hne]

/-- Settles O41: the state is that before the load but for the count and the register write. -/
theorem loadInstructionCompletes : Obligations.LoadInstructionCompletes := by
  refine everyMachine_of fun c f s d va pa n hop ht hr => ⟨_, execIn_of_work_ok (workIn_load hop ht hr), ?_⟩
  simp only [updated_st, countOp_st]
  refine ⟨fun hd => ?_, ?_, fun m hm hne => readStored_writeReg_ne _ _ hm hne, writeReg_frame ..⟩
  · rw [writeReg_ne_zero _ _ _ hd, readStored_writeStored_same]
  · rintro rfl
    rw [writeReg_zero]

/-! ### A store -/

/-- A store that succeeds, and no more. -/
theorem run_store_done {c : Config} {add : Bool} {va pa : Word} {w : Work} (n : Width) (v : Word)
    (ht : translate c .store va w.st = .ok pa) (hr : c.real (wordOf pa) = true) :
    run c add (.store va n v .done) w =
      .ok () (updated (countOp w) fun s => { s with mem := storeBytes s.mem pa n v }) := by
  rw [run, memWrite_eq_ok (u := ()) |>.2 ⟨pa, ht, hr, rfl⟩]
  rfl

/-- Both forms of a store instruction. -/
theorem workIn_store {c : Config} {f : IrFields} {s : State} {va pa v : Word} {n : Width}
    (hop : c.operation f = ⟨0, .store va n v .done⟩ ∨
      ∃ (a b : Nibble) (y z : ZeroReading) (g h : Word → Word),
        c.operation f = ⟨0, .readReg a y fun x => .readReg b z fun u => .store (g x) n (h u) .done⟩ ∧
          va = g (readReg s a y) ∧ v = h (readReg s b z))
    (ht : translate c .store va s = .ok pa) (hr : c.real (wordOf pa) = true) :
    workIn c (.anyInstructionHalfword f) ⟨s, 0⟩ =
      .ok () (updated (countOp ⟨s, 0⟩) fun t => { t with mem := storeBytes t.mem pa n v }) := by
  obtain hfixed | ⟨a, b, y, z, g, h, hreg, rfl, rfl⟩ := hop
  · rw [workIn_other hfixed, run_store_done (w := ⟨s, 0⟩) n v ht hr]
  · rw [workIn_other hreg, run, run, run_store_done (w := ⟨s, 0⟩) n _ ht hr]

/-- Settles O42: the state is that before the store but for the count and the bytes stored. -/
theorem storeInstructionCompletes : Obligations.StoreInstructionCompletes :=
  everyMachine_of fun _ _ s _ pa v n hop ht hr => ⟨_, execIn_of_work_ok (workIn_store hop ht hr),
    readByte_storeBytes_inside s.mem pa n v, readByte_storeBytes_outside s.mem pa n v, rfl⟩

end Sys2Proof.Machine
end

section
/-! Which bytes of memory an instruction can change: those of words that exist (spec/20_memory.md R72), and in
unprivileged code with the unit on those of pages mapped for writing (R76, R77). -/

namespace Sys2Proof.Machine

open Sys2Proof

/-! ### What leaves memory alone -/

@[simp] theorem writeReg_mem (s : State) (n : Nibble) (v : Word) : (writeReg s n v).mem = s.mem := by
  rw [writeReg_frame]

@[simp] theorem writeMmuData_mem (c : Config) (d : Word) (s : State) : (writeMmuData c d s).mem = s.mem := by
  rw [writeMmuData_frame]

theorem writeSpecial_ok_mem {c : Config} {r : SpecialReg} {v : Word} {u : Unit} {w w' : Work}
    (h : writeSpecial c r v w = .ok u w') : w'.st.mem = w.st.mem := by
  obtain ⟨-, rfl⟩ := writeSpecial_eq_ok.1 h
  cases r <;> simp

/-! ### Bytes that stay as they are -/

/-- Every byte at an address with the property is as in `s`. -/
def KeepsBytes (p : Nat → Prop) (s t : State) : Prop := ∀ a, p a → readByte t.mem a = readByte s.mem a

theorem KeepsBytes.refl (p : Nat → Prop) (s : State) : KeepsBytes p s s := fun _ _ => rfl

/-- An update that leaves memory alone. -/
theorem KeepsBytes.next {p : Nat → Prop} {s t t' : State} (h : KeepsBytes p s t) (hmem : t'.mem = t.mem) :
    KeepsBytes p s t' :=
  fun a ha => by rw [hmem, h a ha]

/-- A store that reaches none of the bytes. -/
theorem KeepsBytes.store {p : Nat → Prop} {s t t' : State} {pa v : Word} {n : Width} (h : KeepsBytes p s t)
    (hmem : t'.mem = storeBytes t.mem pa n v)
    (hout : ∀ b, accessBase n pa ≤ b ∧ b < accessBase n pa + accessSize n → ¬p b) : KeepsBytes p s t' := by
  intro a ha
  have houtside : a < accessBase n pa ∨ accessBase n pa + accessSize n ≤ a := by
    have := mt (hout a) (not_not_intro ha)
    omega
  rw [hmem, readByte_storeBytes_outside _ _ _ _ _ houtside, h a ha]

/-! ### Words that do not exist -/

/-- The byte lies in a word that does not exist (20_memory.md R72). -/
def NonexistentByte (c : Config) (a : Nat) : Prop := c.real (BitVec.ofNat 30 (a / 4)) = false

/-- What an access of a real word reaches exists. -/
theorem not_nonexistentByte_of_real {c : Config} {pa : Word} {n : Width} {b : Nat} (hr : c.real (wordOf pa) = true)
    (hb : accessBase n pa ≤ b ∧ b < accessBase n pa + accessSize n) : ¬NonexistentByte c b := by
  rw [NonexistentByte, (access_within n pa b hb).2, ofNat_word, hr]
  exact Bool.noConfusion

theorem work_keeps_nonexistent {c : Config} {i : Instr} {s : State} {w w' : Work} {u : Unit}
    (h : KeepsBytes (NonexistentByte c) s w.st) (hw : workIn c i w = .ok u w') :
    KeepsBytes (NonexistentByte c) s w'.st :=
  work_induct (P := fun w => KeepsBytes (NonexistentByte c) s w.st)
    (Q := fun w => KeepsBytes (NonexistentByte c) s w.st) i
    (fun _ _ => writesOnly_true _)
    (hdone := fun _ h => h)
    (hskip := fun _ _ h => h.next rfl)
    (hdraw := fun _ h => h.next rfl)
    (hunit := fun _ _ _ _ h => h.next rfl)
    (hcostat := fun _ _ h => h.next rfl)
    (hpc := fun _ _ _ h => h.next rfl)
    (hreg := fun w n v h => h.next (writeReg_mem w.st n v))
    (hcc := fun _ _ h => h.next rfl)
    (hread := fun _ _ _ _ _ h => h.next rfl)
    (hstore := fun _ _ _ _ _ _ hr h => h.store rfl fun _ => not_nonexistentByte_of_real hr)
    (hnext := fun _ _ _ _ h => h.next rfl)
    (hbcd := fun _ _ _ h => h.next rfl)
    (hspecial := fun _ _ _ _ _ _ hw h => h.next (writeSpecial_ok_mem hw))
    (hreturn := fun _ _ _ _ h => h.next rfl)
    h hw

/-- Settles O54: the work of an instruction stores to real words only, and trap entry stores nothing. -/
theorem nonexistentMemoryIsNeverWritten : Obligations.NonexistentMemoryIsNeverWritten := by
  refine everyMachine_of fun c i s t ht => ?_
  obtain ⟨w, u, hw, rfl⟩ | ⟨tr, w, rfl⟩ := exec_cases ht
  · exact work_keeps_nonexistent (.refl _ s) hw
  · exact (KeepsBytes.refl _ s).next (abandon_mem ..)

/-! ### Pages that are not mapped for writing -/

/-- What a store with the unit on reaches lies in a page that a valid mapping register gives for writing. -/
theorem writableByte_of_translate {c : Config} {s : State} {va pa : Word} {n : Width} {b : Nat}
    (hon : unitOn s.psw = true) (ht : translate c .store va s = .ok pa)
    (hb : accessBase n pa ≤ b ∧ b < accessBase n pa + accessSize n) : writableByte s b := by
  obtain ⟨e, he, hvalid, hwrite, rfl⟩ := (translate_on_eq_ok hon).1 ht
  refine ⟨e, (lookupPage_eq_some he).1, hvalid, hwrite, ?_⟩
  rw [(access_within n _ b hb).1, ← toNat_pageOf, pageOf_append]

/-- The level alone says whether the unit is on (20_memory.md R74). -/
theorem unitOn_of_level_eq {p q : Word} (h : levelOf p = levelOf q) : unitOn p = unitOn q := by
  rw [unitOn, unitOn, h]

/-- An instruction of unprivileged code with the unit on, in progress since `s`: the unit is still on under the mapping
registers of `s`, and no byte that they do not give for writing has changed. -/
structure IsolatedSince (c : Config) (s : State) (w : Work) : Prop where
  unprivileged : UnprivilegedSince c s w
  unitOn : unitOn w.st.psw = true
  bytes : KeepsBytes (fun a => ¬writableByte s a) s w.st

/-- An update that keeps the level, the privileged registers and memory goes on as before. -/
theorem IsolatedSince.next {c : Config} {s : State} {w w' : Work} (h : IsolatedSince c s w)
    (hlevel : levelOf w'.st.psw = levelOf w.st.psw) (hkeeps : KeepsPrivileged w.st w'.st)
    (hmem : w'.st.mem = w.st.mem) : IsolatedSince c s w' where
  unprivileged := h.unprivileged.next hlevel hkeeps
  unitOn := (unitOn_of_level_eq hlevel).trans h.unitOn
  bytes := h.bytes.next hmem

/-- A store reaches what the mapping registers of `s` give for writing, since they are in force still. -/
theorem IsolatedSince.store {c : Config} {s : State} {w : Work} {va pa : Word} (h : IsolatedSince c s w)
    (ht : translate c .store va w.st = .ok pa) (n : Width) (v : Word) :
    IsolatedSince c s (updated (countOp w) fun s => { s with mem := storeBytes s.mem pa n v }) where
  unprivileged := h.unprivileged.next rfl ⟨rfl, rfl, rfl, rfl⟩
  unitOn := h.unitOn
  bytes := h.bytes.store rfl fun b hb => not_not_intro <| by
    have hwritable := writableByte_of_translate h.unitOn ht hb
    rwa [writableByte, h.unprivileged.keeps.mmu] at hwritable

/-- The one write of a special register that unprivileged code completes is of the PSW, with its own level in it
(42_special_register_access.md R151, R158). -/
theorem level_writeSpecial_of_unprivileged {c : Config} {r : SpecialReg} {v : Word} {u : Unit} {w w' : Work}
    (hu : inPrivileged c w.st = false) (hw : writeSpecial c r v w = .ok u w') :
    levelOf w'.st.psw = levelOf w.st.psw := by
  obtain ⟨hpriv | ⟨rfl, hsame⟩, rfl⟩ := writeSpecial_eq_ok.1 hw
  · rw [hu] at hpriv
    cases hpriv
  · exact (levelOf_and_pswMask c v).trans ((level_prior_iff v _).1 hsame).1

theorem IsolatedSince.writeSpecial {c : Config} {s : State} {r : SpecialReg} {v : Word} {u : Unit} {w w' : Work}
    (h : IsolatedSince c s w) (hw : writeSpecial c r v w = .ok u w') : IsolatedSince c s w' where
  unprivileged := h.unprivileged.writeSpecial hw
  unitOn := (unitOn_of_level_eq (level_writeSpecial_of_unprivileged h.unprivileged.unprivileged hw)).trans h.unitOn
  bytes := h.bytes.next (writeSpecial_ok_mem hw)

theorem IsolatedSince.work {c : Config} {i : Instr} {s : State} {w w' : Work} {u : Unit}
    (h : IsolatedSince c s w) (hw : workIn c i w = .ok u w') : IsolatedSince c s w' :=
  work_induct (P := IsolatedSince c s) (Q := IsolatedSince c s) i
    (fun _ _ => writesOnly_true _)
    (hdone := fun _ h => h)
    (hskip := fun _ _ h => h.next rfl ⟨rfl, rfl, rfl, rfl⟩ rfl)
    (hdraw := fun _ h => h.next rfl ⟨rfl, rfl, rfl, rfl⟩ rfl)
    (hunit := fun _ _ _ _ h => h.next rfl ⟨rfl, rfl, rfl, rfl⟩ rfl)
    (hcostat := fun _ _ h => h.next rfl ⟨rfl, rfl, rfl, rfl⟩ rfl)
    (hpc := fun _ _ _ h => h.next rfl ⟨rfl, rfl, rfl, rfl⟩ rfl)
    (hreg := fun w n v h => h.next (congrArg levelOf (writeReg_psw w.st n v))
      (keepsPrivileged_writeReg w.st n v) (writeReg_mem w.st n v))
    (hcc := fun w cc h => h.next (levelOf_withCC w.st.psw cc) ⟨rfl, rfl, rfl, rfl⟩ rfl)
    (hread := fun _ _ _ _ _ h => h.next rfl ⟨rfl, rfl, rfl, rfl⟩ rfl)
    (hstore := fun _ _ _ n v ht _ h => h.store ht n v)
    (hnext := fun _ _ _ _ h => h.next rfl ⟨rfl, rfl, rfl, rfl⟩ rfl)
    (hbcd := fun w v _ h => h.next (levelOf_withBcd c w.st.psw v) ⟨rfl, rfl, rfl, rfl⟩ rfl)
    (hspecial := fun _ _ _ _ _ _ hw h => h.writeSpecial hw)
    (hreturn := fun _ _ hpriv _ h => by rw [h.unprivileged.unprivileged] at hpriv; cases hpriv)
    h hw

/-- Settles O53: an instruction that does not trap has been isolated all along, and trap entry stores nothing. -/
theorem mappingRegistersIsolateMemory : Obligations.MappingRegistersIsolateMemory := by
  refine everyMachine_of fun c i s t hs hon ht => ?_
  obtain ⟨w, u, hw, rfl⟩ | ⟨tr, w, rfl⟩ := exec_cases ht
  · have hstart : IsolatedSince c s ⟨s, 0⟩ := ⟨.start hs, hon, .refl _ s⟩
    exact (hstart.work hw).bytes
  · exact (KeepsBytes.refl _ s).next (abandon_mem ..)

end Sys2Proof.Machine
end
section
/-! Instructions as bytes (spec/30_encoding.md R100 to R110): the fields and the bytes of a halfword, what the decoder
answers for each kind of first halfword, and that the encoder's halfword decodes to the instruction it stands for. -/

namespace Sys2Proof

/-! ### The halfword, its fields and its bytes (R101 to R104) -/

/-- Each field is what the halfword has at that field's place. -/
@[simp] theorem splitHalfword_joinFields (f : IrFields) : splitHalfword (joinFields f) = f := by
  have hdst : (f.s1 ++ f.s2 ++ f.op ++ f.dst).extractLsb' 0 4 = f.dst := BitVec.extractLsb'_append_eq_right
  have hop : (f.s1 ++ f.s2 ++ f.op ++ f.dst).extractLsb' 4 4 = f.op := by
    rw [BitVec.extractLsb'_append_eq_of_le (by decide), BitVec.extractLsb'_append_eq_right]
  have hs2 : (f.s1 ++ f.s2 ++ f.op ++ f.dst).extractLsb' 8 4 = f.s2 := by
    rw [BitVec.extractLsb'_append_eq_of_le (by decide), BitVec.extractLsb'_append_eq_of_le (by decide),
      BitVec.extractLsb'_append_eq_right]
  have hs1 : (f.s1 ++ f.s2 ++ f.op ++ f.dst).extractLsb' 12 4 = f.s1 := by
    rw [BitVec.extractLsb'_append_eq_of_le (by decide), BitVec.extractLsb'_append_eq_of_le (by decide),
      BitVec.extractLsb'_append_eq_left]
  simp only [splitHalfword, joinFields, hdst, hop, hs2, hs1]

theorem constField_splitHalfword (h : Halfword) : constField (splitHalfword h) = h.extractLsb' 8 8 :=
  BitVec.extractLsb'_append_extractLsb'_eq_extractLsb' rfl

/-- The two bytes in address order make up the halfword. -/
@[simp] theorem bytesHalfword_extractLsb' (h : Halfword) :
    bytesHalfword (h.extractLsb' 0 8) (h.extractLsb' 8 8) = h :=
  BitVec.extractLsb'_append_extractLsb'

/-- The fields side by side are `const` and, below it, the first byte. -/
@[simp] theorem joinFields_splitHalfword (h : Halfword) : joinFields (splitHalfword h) = h := by
  have hlow : h.extractLsb' 4 4 ++ h.extractLsb' 0 4 = h.extractLsb' 0 8 :=
    BitVec.extractLsb'_append_extractLsb'_eq_extractLsb' rfl
  calc joinFields (splitHalfword h)
      = constField (splitHalfword h) ++ (h.extractLsb' 4 4 ++ h.extractLsb' 0 4) := BitVec.append_assoc
    _ = h.extractLsb' 8 8 ++ h.extractLsb' 0 8 := by rw [constField_splitHalfword, hlow]
    _ = h := bytesHalfword_extractLsb' h

/-- Settles O3: the fields and the bytes of a halfword, each put together and taken apart. -/
theorem fieldsAreTheHalfword : Obligations.FieldsAreTheHalfword :=
  ⟨joinFields_splitHalfword, splitHalfword_joinFields,
    fun h => ⟨constField_splitHalfword h, bytesHalfword_extractLsb' h⟩⟩

/-! ### What the op fields make of a halfword (R105, R110) -/

theorem decodeFields_invalid {c : Config} {f : IrFields} (hk : c.opKind f.op f.s1 f.s2 = .invalid) :
    decodeFields c f = .error (.invalidOpcode f) := by
  rw [decodeFields, hk]

theorem decodeFields_coget {c : Config} {f : IrFields} (hk : c.opKind f.op f.s1 f.s2 = .coget) :
    decodeFields c f = .ok (.coget (f.get c.cogetDst) (f.get c.cogetReg)) := by
  rw [decodeFields, hk]

theorem decodeFields_coset {c : Config} {f : IrFields} (hk : c.opKind f.op f.s1 f.s2 = .coset) :
    decodeFields c f = .ok (.coset (f.get c.cosetSrc) (f.get c.cosetReg)) := by
  rw [decodeFields, hk]

theorem decodeFields_other {c : Config} {f : IrFields} (hk : c.opKind f.op f.s1 f.s2 = .other) :
    decodeFields c f = .ok (.anyInstructionHalfword f) := by
  rw [decodeFields, hk]

/-! ### Decoding bytes (R100) -/

theorem decode_of_decodeFields_eq_ok {c : Config} {b0 b1 : Byte} {i : Instr} (rest : List Byte)
    (hf : decodeFields c (splitHalfword (bytesHalfword b0 b1)) = .ok i) :
    decode c (b0 :: b1 :: rest) = .ok (i, rest) := by
  rw [decode, hf]

theorem decode_of_decodeFields_eq_error {c : Config} {b0 b1 : Byte} {e : DecodeError} (rest : List Byte)
    (hf : decodeFields c (splitHalfword (bytesHalfword b0 b1)) = .error e) :
    decode c (b0 :: b1 :: rest) = .error e := by
  rw [decode, hf]

/-- Bytes decode exactly where there are two of them and their fields do; the other bytes are left. -/
theorem decode_eq_ok {c : Config} {bytes rest : List Byte} {i : Instr} :
    decode c bytes = .ok (i, rest) ↔
      ∃ b0 b1, bytes = b0 :: b1 :: rest ∧ decodeFields c (splitHalfword (bytesHalfword b0 b1)) = .ok i := by
  constructor
  · intro hd
    match bytes, hd with
    | b0 :: b1 :: tail, hd =>
      cases hf : decodeFields c (splitHalfword (bytesHalfword b0 b1)) with
      | ok j =>
        rw [decode_of_decodeFields_eq_ok tail hf] at hd
        cases hd
        exact ⟨b0, b1, rfl, hf⟩
      | error e =>
        rw [decode_of_decodeFields_eq_error tail hf] at hd
        cases hd
  · rintro ⟨b0, b1, rfl, hf⟩
    exact decode_of_decodeFields_eq_ok rest hf

/-- The bytes of a halfword decode as its fields do, whatever follows them. -/
theorem decode_halfwordBytes {c : Config} {h : Halfword} {i : Instr} (rest : List Byte)
    (hf : decodeFields c (splitHalfword h) = .ok i) : decode c (halfwordBytes h ++ rest) = .ok (i, rest) :=
  decode_of_decodeFields_eq_ok rest (by rwa [bytesHalfword_extractLsb'])

/-- Settles O4: the fields of the two example halfwords, under each kind the opcode map can give them. -/
theorem specHalfwordsDecode : Obligations.SpecHalfwordsDecode := by
  have h5678 : splitHalfword (bytesHalfword 0x78#8 0x56#8) = ⟨7#4, 8#4, 5#4, 6#4⟩ := by decide
  have hcdab : splitHalfword (bytesHalfword 0xAB#8 0xCD#8) = ⟨0xA#4, 0xB#4, 0xC#4, 0xD#4⟩ := by decide
  refine ⟨fun c hk => ?other, fun c hk hdst hreg => ?coget, fun c hk hsrc hreg => ?coset, fun c hk => ?invalid⟩
  case other => exact decode_of_decodeFields_eq_ok [] (by rw [h5678, decodeFields_other hk])
  case coget => exact decode_of_decodeFields_eq_ok [] (by rw [hcdab, decodeFields_coget hk, hdst, hreg]; rfl)
  case coset => exact decode_of_decodeFields_eq_ok [] (by rw [hcdab, decodeFields_coset hk, hsrc, hreg]; rfl)
  case invalid => exact decode_of_decodeFields_eq_error [] (by rw [h5678, decodeFields_invalid hk])

/-! ### Encoding -/

theorem isSome_encode (c : Config) (i : Instr) : (encode c i).isSome = wellFormed c i := by
  cases i with
  | anyInstructionHalfword f => exact Laws.EncodeWellFormed.anyInstructionHalfword f c
  | coget dst k => exact Laws.EncodeWellFormed.coget dst k c
  | coset src k => exact Laws.EncodeWellFormed.coset src k c

theorem wellFormed_iff_exists_encode {c : Config} {i : Instr} :
    wellFormed c i = true ↔ ∃ h, encode c i = some h := by
  rw [← isSome_encode, Option.isSome_iff_exists]

/-- The encoder's halfword has fields that decode to the instruction: those of the instruction itself, or those that the
search for its operands found. -/
theorem decodeFields_of_encode {c : Config} {i : Instr} {h : Halfword} (he : encode c i = some h) :
    decodeFields c (splitHalfword h) = .ok i := by
  cases i with
  | anyInstructionHalfword f =>
    obtain ⟨hk, hfields⟩ := Option.ite_none_right_eq_some.1 he
    cases hfields
    rw [splitHalfword_joinFields, decodeFields_other (beq_iff_eq.1 hk)]
  | coget dst k =>
    obtain ⟨f, hfound, rfl⟩ := Option.map_eq_some_iff.1 he
    obtain ⟨hk, hoperands⟩ := findFields_eq_some hfound
    obtain ⟨hdst, hreg⟩ := Bool.and_eq_true_iff.1 hoperands
    rw [splitHalfword_joinFields, decodeFields_coget hk, beq_iff_eq.1 hdst, beq_iff_eq.1 hreg]
  | coset src k =>
    obtain ⟨f, hfound, rfl⟩ := Option.map_eq_some_iff.1 he
    obtain ⟨hk, hoperands⟩ := findFields_eq_some hfound
    obtain ⟨hsrc, hreg⟩ := Bool.and_eq_true_iff.1 hoperands
    rw [splitHalfword_joinFields, decodeFields_coset hk, beq_iff_eq.1 hsrc, beq_iff_eq.1 hreg]

/-- Settles O1: a well-formed instruction has a halfword, whose fields decode to it. -/
theorem decodeOfEncodeIsIdentity : Obligations.DecodeOfEncodeIsIdentity := by
  intro c i hi
  obtain ⟨h, he⟩ := wellFormed_iff_exists_encode.1 hi
  exact ⟨h, he, fun rest => decode_halfwordBytes rest (decodeFields_of_encode he)⟩

/-- Settles O2: the fields of the two bytes decode to the instruction, so it is well formed and the encoder has a
halfword for it. -/
theorem decodedInstructionIsEncodable : Obligations.DecodedInstructionIsEncodable := by
  intro c bytes i rest hd
  obtain ⟨b0, b1, hbytes, hf⟩ := decode_eq_ok.1 hd
  have hi : wellFormed c i = true := wellFormed_of_decodeFields hf
  exact ⟨hi, ⟨b0, b1, hbytes⟩, wellFormed_iff_exists_encode.1 hi⟩

end Sys2Proof
end

section
/-! The program counter of an operation that stays in line, and an instruction as the run of its operation
(spec/30_encoding.md R111, 40_instruction_cycle.md R123, R124). -/

namespace Sys2Proof.Machine

open Sys2Proof

/-! ### What leaves the pc alone -/

@[simp] theorem writeReg_pc (s : State) (n : Nibble) (v : Word) : (writeReg s n v).pc = s.pc := by
  rw [writeReg_frame]

@[simp] theorem writeMmuData_pc (c : Config) (d : Word) (s : State) : (writeMmuData c d s).pc = s.pc := by
  rw [writeMmuData_frame]

theorem memRead_ok_pc {c : Config} {kind : AccessKind} {va v : Word} {n : Width} {w w' : Work}
    (h : memRead c kind va n w = .ok v w') : w'.st.pc = w.st.pc := by
  obtain ⟨_, -, -, rfl, -⟩ := memRead_eq_ok.1 h
  rfl

theorem memWrite_ok_pc {c : Config} {va v : Word} {n : Width} {u : Unit} {w w' : Work}
    (h : memWrite c va n v w = .ok u w') : w'.st.pc = w.st.pc := by
  obtain ⟨_, -, -, rfl⟩ := memWrite_eq_ok.1 h
  rfl

theorem readSpecial_ok_pc {c : Config} {r : SpecialReg} {v : Word} {w w' : Work}
    (h : readSpecial c r w = .ok v w') : w'.st.pc = w.st.pc := by
  obtain ⟨-, rfl | hst⟩ := readSpecial_ok_state h
  · rfl
  · rw [hst]

theorem writeSpecial_ok_pc {c : Config} {r : SpecialReg} {v : Word} {u : Unit} {w w' : Work}
    (h : writeSpecial c r v w = .ok u w') : w'.st.pc = w.st.pc := by
  obtain ⟨-, rfl⟩ := writeSpecial_eq_ok.1 h
  cases r <;> simp

/-! ### The pc moves by the halfwords taken -/

/-- The pc `n` halfwords on, modulo 2^32. -/
def halfwordsOn (n : Nat) (pc : Word) : Word := pc + BitVec.ofNat 32 (2 * n)

@[simp] theorem halfwordsOn_zero (pc : Word) : halfwordsOn 0 pc = pc := BitVec.add_zero pc

theorem halfwordsOn_succ (n : Nat) (pc : Word) : halfwordsOn (n + 1) pc = halfwordsOn n (pc + 2#32) := by
  rw [halfwordsOn, halfwordsOn, Nat.mul_add_one, Nat.add_comm, BitVec.ofNat_add, BitVec.add_assoc]

theorem nextHalfword_ok_pc {c : Config} {h : Halfword} {w w' : Work}
    (hn : nextHalfword c w = .ok h w') : w'.st.pc = w.st.pc + 2#32 := by
  obtain ⟨_, -, -, rfl, -⟩ := nextHalfword_eq_ok.1 hn
  rfl

/-- An operation that sets the pc nowhere and completes moves it past the further halfwords it takes: the index of its
type counts them, and no other primitive reaches the pc. -/
theorem run_ok_pc_of_staysInLine {c : Config} {add : Bool} {m : Nat} (p : Program m) :
    ∀ {w w' : Work} {u : Unit}, staysInLine p → run c add p w = .ok u w' →
      w'.st.pc = halfwordsOn m w.st.pc := by
  induction p with
  | done =>
    intro w w' u _ h
    rw [done_eq_ok.1 h, halfwordsOn_zero]
  | readReg n z k ih => exact fun hl h => ih _ (hl _) h
  | writeReg n v p ih =>
    intro w w' u hl h
    rw [ih hl h, updated_st, writeReg_pc]
  | setPc t p ih => exact fun hl => hl.elim
  | load va n k ih =>
    intro w w' u hl h
    obtain ⟨v, w1, h1, h2⟩ := andThen_eq_ok.1 h
    rw [ih v (hl v) h2, memRead_ok_pc h1]
  | store va n v p ih =>
    intro w w' u hl h
    obtain ⟨_, w1, h1, h2⟩ := andThen_eq_ok.1 h
    rw [ih hl h2, memWrite_ok_pc h1]
  | nextHalfword k ih =>
    intro w w' u hl h
    obtain ⟨v, w1, h1, h2⟩ := andThen_eq_ok.1 h
    rw [ih v (hl v) h2, nextHalfword_ok_pc h1, halfwordsOn_succ]
  | readCC k ih => exact fun hl h => ih _ (hl _) h
  | writeCC cc p ih =>
    intro w w' u hl h
    rw [ih hl h, updated_st]
  | readBcd k ih => exact fun hl h => ih _ (hl _) h
  | writeBcd v p ih =>
    intro w w' u hl h
    cases add with
    | false => exact ih hl h
    | true => rw [ih hl h, if_pos rfl, updated_st]
  | readSpecial r k ih =>
    intro w w' u hl h
    obtain ⟨v, w1, h1, h2⟩ := andThen_eq_ok.1 h
    rw [ih v (hl v) h2, readSpecial_ok_pc h1]
  | writeSpecial r v p ih =>
    intro w w' u hl h
    obtain ⟨_, w1, h1, h2⟩ := andThen_eq_ok.1 h
    rw [ih hl h2, writeSpecial_ok_pc h1]
  | requirePrivilege p ih => exact fun hl h => ih hl (guardPrivilege_eq_ok.1 h).2
  | draw k ih =>
    intro w w' u hl h
    rw [ih _ (hl _) h, drawWord_state_pc]
  | raiseInvalid => intro w w' u _ h; cases h
  | trapReturn f => exact fun hl => hl.elim

/-! ### The whole instruction -/

theorem lengthOf_other {c : Config} {f : IrFields} {h : Halfword}
    (hd : decodeFields c (splitHalfword h) = .ok (.anyInstructionHalfword f)) :
    lengthOf c h = (c.operation f).further + 1 := by
  rw [lengthOf, hd]

/-- From its first halfword on an instruction is one halfword longer than from behind it. -/
theorem halfwordsOn_eq_from_start (n : Nat) (pc : Word) :
    halfwordsOn n pc = pc - 2#32 + BitVec.ofNat 32 (2 * (n + 1)) := by
  rw [← halfwordsOn, halfwordsOn_succ, BitVec.sub_add_cancel]

/-- Settles O39: the work is the run, finished; in line it moves the pc by the further halfwords, which the halfword in
`ir` gives with the first one. -/
theorem otherInstructionRunsItsOperation : Obligations.OtherInstructionRunsItsOperation := by
  refine everyMachine_of fun c f s => ⟨_, execIn_eq_finish c (.anyInstructionHalfword f) s, fun u w hrun => ?_,
    fun tr w hrun => ?_⟩
  · rw [workIn, hrun, finish_ok]
    refine ⟨rfl, fun hline hd => ?_⟩
    rw [run_ok_pc_of_staysInLine _ hline hrun, lengthOf_other hd, halfwordsOn_eq_from_start]
  · rw [workIn, hrun, finish_trap, instrStart]

end Sys2Proof.Machine
end

section
/-! A register move, a jump and a second halfword: short instructions as a whole (spec/40_instruction_cycle.md R124,
R125, R128). -/

namespace Sys2Proof.Machine

open Sys2Proof

/-! ### A register move (R125) -/

theorem readStored_writeReg_same (s : State) {d : Nibble} (v : Word) (hd : d ≠ 0#4) :
    readStored (writeReg s d v) d = v := by
  rw [writeReg_ne_zero s d v hd, readStored_writeStored_same]

/-- Settles O40: the work is one register write of what the source reads as. -/
theorem registerMoveCompletes : Obligations.RegisterMoveCompletes := by
  refine everyMachine_of fun c f s d a z hop => ?_
  have hwork : workIn c (.anyInstructionHalfword f) ⟨s, 0⟩ = .ok () ⟨writeReg s d (readReg s a z), 0⟩ :=
    workIn_other hop _
  refine ⟨_, execIn_of_work_ok hwork, ?_, fun hd => ?_, fun n hn hne => readStored_writeReg_ne s _ hn hne,
    writeReg_frame ..⟩
  · intro hd
    rw [hd, writeReg_zero]
  · exact readStored_writeReg_same s _ hd

/-! ### A jump (R128) -/

/-- Both forms of a jump to an even address. -/
theorem workIn_jump {c : Config} {f : IrFields} {s : State} {target : Word}
    (hop : c.operation f = ⟨0, .setPc target .done⟩ ∨
      ∃ (a : Nibble) (z : ZeroReading) (g : Word → Word),
        c.operation f = ⟨0, .readReg a z fun x => .setPc (g x) .done⟩ ∧ target = g (readReg s a z))
    (heven : target.getLsbD 0 = false) :
    workIn c (.anyInstructionHalfword f) ⟨s, 0⟩ = .ok () ⟨{ s with pc := target }, 0⟩ := by
  obtain hfixed | ⟨a, z, g, hreg, rfl⟩ := hop
  · rw [workIn_other hfixed, run, setPc_even c heven]
    rfl
  · rw [workIn_other hreg, run, run, setPc_even c heven]
    rfl

/-- Settles O43: the work is the setting of the pc. -/
theorem jumpInstructionCompletes : Obligations.JumpInstructionCompletes :=
  everyMachine_of fun _ _ _ _ hop heven => execIn_of_work_ok (workIn_jump hop heven)

/-! ### The entry of an instruction's trap -/

theorem execIn_of_work_trap {c : Config} {i : Instr} {s : State} {tr : Trap} {w : Work}
    (hw : workIn c i ⟨s, 0⟩ = .trap tr w) : execIn c i s = .next (abandon c tr (instrStart s) s w) := by
  rw [execIn_eq_finish, hw, finish_trap]

@[simp] theorem countFaulting_draws (c : Config) (w : Work) : (countFaulting c w).st.draws = w.st.draws := by
  obtain h | h := countFaulting_cases c w <;> rw [h]
  rfl

/-- Trap entry turns the memory-management unit off (60_exceptions.md R182). -/
theorem unitOn_abandon (c : Config) (tr : Trap) (start : Word) (s : State) (w : Work) :
    unitOn (abandon c tr start s w).psw = false := by
  rw [abandon_psw, unitOn_withLevel, getLsbD_trapLevel_three]

/-- What of the state a trap changes: the draws are those of the work. -/
theorem abandon_frame (c : Config) (tr : Trap) (start : Word) (s : State) {w : Work} (hd : w.st.draws = s.draws) :
    abandon c tr start s w =
      { s with
        tpc := (abandon c tr start s w).tpc
        tma := (abandon c tr start s w).tma
        pc := (abandon c tr start s w).pc
        psw := (abandon c tr start s w).psw
        cyc := (abandon c tr start s w).cyc } := by
  rw [abandon, hd]
  rfl

/-! ### A second halfword (R124) -/

/-- A halfword fetched and padded with zeros is what a halfword load gives. -/
theorem zeroExtend_half_loadBytes (m : Memory) (pa : Word) :
    ((loadBytes m pa .half).extractLsb' 0 16).zeroExtend 32 = loadBytes m pa .half := by
  rw [half_loadBytes]
  rfl

/-- The work of an instruction that puts its second halfword into a register, where it can be fetched. -/
theorem workIn_secondHalfword {c : Config} {f : IrFields} {s : State} {d : Nibble} {pa : Word}
    (hop : c.operation f = ⟨1, .nextHalfword fun h => .writeReg d (h.zeroExtend 32) .done⟩)
    (ht : translate c .fetch s.pc s = .ok pa) (hr : c.real (wordOf pa) = true) :
    workIn c (.anyInstructionHalfword f) ⟨s, 0⟩ =
      .ok () ⟨writeReg { s with pc := s.pc + 2#32, cyc := s.cyc + 1#32 } d (loadBytes s.mem pa .half), 1⟩ := by
  have hnext : nextHalfword c ⟨s, 0⟩ = .ok _ _ := nextHalfword_eq_ok.2 ⟨pa, ht, hr, rfl, rfl⟩
  rw [workIn_other hop, run, hnext, andThen_of_ok, zeroExtend_half_loadBytes]
  rfl

/-- An instruction whose second halfword cannot be fetched traps with nothing done but the count of the fetch. -/
theorem workIn_secondHalfword_trap {c : Config} {f : IrFields} {s : State} {m : Nat} {k : Halfword → Program m}
    {tr : Trap} (hop : c.operation f = ⟨m + 1, .nextHalfword k⟩)
    (ht : translate c .fetch s.pc s = .error tr) :
    workIn c (.anyInstructionHalfword f) ⟨s, 0⟩ = .trap tr (countFaulting c ⟨s, 0⟩) := by
  have htrap : nextHalfword c ⟨s, 0⟩ = .trap tr (countFaulting c ⟨s, 0⟩) :=
    nextHalfword_eq_trap.2 (access_eq_trap.2 ⟨rfl, .inl ht⟩)
  rw [workIn_other hop, run, htrap, andThen_of_trap]

/-- Settles O44: the fetch of the second halfword by its two rules, on an unmapped page by the MMU trap. -/
theorem secondHalfwordIsFetchedOrTraps : Obligations.SecondHalfwordIsFetchedOrTraps := by
  refine everyMachine_of fun c f s d hop => ⟨fun pa ht hr => ?fetched, fun hon hnone => ?unmapped⟩
  case fetched =>
    refine ⟨_, execIn_of_work_ok (workIn_secondHalfword hop ht hr), fun hd => ?_, fun m hm hne => ?_,
      writeReg_frame ..⟩
    · exact readStored_writeReg_same _ _ hd
    · exact readStored_writeReg_ne _ _ hm hne
  case unmapped =>
    exact ⟨_, execIn_of_work_trap (workIn_secondHalfword_trap hop (translate_of_no_match hon hnone)), rfl, rfl, rfl,
      unitOn_abandon .., abandon_frame _ _ _ _ (countFaulting_draws ..)⟩

end Sys2Proof.Machine
end

section
/-! The condition codes and the bcd carry: which instructions leave the bcd carry alone, and what an instruction that
writes one or the other does as a whole (spec/40_instruction_cycle.md R126, R127). -/

namespace Sys2Proof.Machine

open Sys2Proof

/-! ### What leaves the bcd carry alone (R127) -/

@[simp] theorem writeMmuData_psw (c : Config) (d : Word) (s : State) : (writeMmuData c d s).psw = s.psw := by
  rw [writeMmuData_frame]

theorem writeSpecial_ok_psw {c : Config} {r : SpecialReg} {v : Word} {u : Unit} {w w' : Work} (hr : r ≠ .psw)
    (h : writeSpecial c r v w = .ok u w') : w'.st.psw = w.st.psw := by
  obtain ⟨-, rfl⟩ := writeSpecial_eq_ok.1 h
  cases r <;> simp at hr ⊢

/-- The bcd carry is as in `s`. -/
def KeepsBcd (c : Config) (s : State) (w : Work) : Prop := bcdOf c w.st.psw = bcdOf c s.psw

/-- An update that leaves the PSW. -/
theorem KeepsBcd.keep {c : Config} {s : State} {w w' : Work} (h : KeepsBcd c s w) (hpsw : w'.st.psw = w.st.psw) :
    KeepsBcd c s w' :=
  (congrArg (bcdOf c) hpsw).trans h

/-- Of an instruction in progress that is no add instruction and writes no PSW: the other writes of the PSW are of the
condition codes and, by a return from trap, of level and prior. -/
theorem KeepsBcd.work {c : Config} {i : Instr} {s : State} {w w' : Work} {u : Unit} (h : KeepsBcd c s w)
    (hi : ∀ f, i = .anyInstructionHalfword f → c.isAdd f = false ∧ writesOnly (· ≠ .psw) (c.operation f).program)
    (hw : workIn c i w = .ok u w') : KeepsBcd c s w' :=
  work_induct (P := KeepsBcd c s) (Q := KeepsBcd c s) i (fun f hf => (hi f hf).2)
    (hdone := fun _ h => h)
    (hskip := fun _ _ h => h.keep rfl)
    (hdraw := fun _ h => h.keep rfl)
    (hunit := fun _ _ _ _ h => h.keep rfl)
    (hcostat := fun _ _ h => h.keep rfl)
    (hpc := fun _ _ _ h => h.keep rfl)
    (hreg := fun w n v h => h.keep (writeReg_psw w.st n v))
    (hcc := fun w cc h => (bcdOf_withCC c w.st.psw cc).trans h)
    (hread := fun _ _ _ _ _ h => h.keep rfl)
    (hstore := fun _ _ _ _ _ _ _ h => h.keep rfl)
    (hnext := fun _ _ _ _ h => h.keep rfl)
    (hbcd := fun _ _ ⟨f, hf, hadd⟩ _ => absurd hadd (by simp [(hi f hf).1]))
    (hspecial := fun _ _ _ _ _ hr hw h => h.keep (writeSpecial_ok_psw hr hw))
    (hreturn := fun _ _ _ _ h => ((bcdOf_withLevel ..).trans (bcdOf_withPrior ..)).trans h)
    h hw

theorem bcdOf_abandon (c : Config) (tr : Trap) (start : Word) (s : State) (w : Work) :
    bcdOf c (abandon c tr start s w).psw = bcdOf c s.psw := by
  rw [abandon_psw, bcdOf_withLevel, bcdOf_withPrior]

/-- Settles O48: the work keeps the bcd carry, and trap entry writes level and prior only. -/
theorem onlyAddInstructionsSetBcdCarry : Obligations.OnlyAddInstructionsSetBcdCarry := by
  refine everyMachine_of fun c i s t hi ht => ?_
  obtain ⟨w, u, hw, rfl⟩ | ⟨tr, w, rfl⟩ := exec_cases ht
  · exact KeepsBcd.work (w := ⟨s, 0⟩) rfl hi hw
  · exact bcdOf_abandon ..

/-! ### Instructions that write the flags (R126, R127) -/

/-- The PSW after an instruction that writes the condition codes and then the bcd carry, which is written only where it
is an add instruction. -/
def flagsWritten (c : Config) (add : Bool) (psw : Word) (cc : Nibble) (v : Word) : Word :=
  if add then withBcd c (withCC psw cc) v else withCC psw cc

theorem ccOf_flagsWritten (c : Config) (add : Bool) (psw : Word) (cc : Nibble) (v : Word) :
    ccOf (flagsWritten c add psw cc v) = cc := by
  cases add with
  | false => exact ccOf_withCC psw cc
  | true => exact (ccOf_withBcd ..).trans (ccOf_withCC psw cc)

theorem getLsbD_withCC_of_le {psw : Word} {cc : Nibble} {i : Nat} (hi : 4 ≤ i) :
    (withCC psw cc).getLsbD i = psw.getLsbD i := by
  rw [getLsbD_withCC, if_neg (by omega)]

/-- Past the condition codes only the bcd-carry field can be another, and only of an add instruction. -/
theorem getLsbD_flagsWritten (c : Config) (add : Bool) (psw : Word) (cc : Nibble) (v : Word) {i : Nat} (hi : 4 ≤ i) :
    (flagsWritten c add psw cc v).getLsbD i =
      if bcdLo c ≤ i ∧ i ≤ bcdHi c ∧ add = true then v.getLsbD (i - bcdLo c) else psw.getLsbD i := by
  cases add with
  | false => simp [flagsWritten, getLsbD_withCC_of_le hi]
  | true => simp [flagsWritten, getLsbD_withBcd, getLsbD_withCC_of_le hi]

/-- The three writes that end an arithmetic operation. -/
theorem run_writeReg_writeCC_writeBcd (c : Config) (add : Bool) (d cc : Nibble) (r v : Word) (w : Work) :
    run c add (.writeReg d r (.writeCC cc (.writeBcd v .done))) w =
      .ok () ⟨{ writeReg w.st d r with psw := flagsWritten c add w.st.psw cc v }, w.ops⟩ := by
  rw [← writeReg_psw w.st d r]
  cases add <;> rfl

/-- Settles O60: the work of each form, and the PSW bit by bit. -/
theorem flagWritingInstructionsComplete : Obligations.FlagWritingInstructionsComplete := by
  refine everyMachine_of fun c f s => ⟨fun v hop hadd => ?bcd, fun cc hop => ?cc,
    fun a b d y z g k h hop => ?arithmetic⟩
  case bcd =>
    have hwork : workIn c (.anyInstructionHalfword f) ⟨s, 0⟩ = .ok () ⟨{ s with psw := withBcd c s.psw v }, 0⟩ := by
      rw [workIn_other hop, hadd]
      rfl
    exact ⟨_, execIn_of_work_ok hwork, rfl, getLsbD_withBcd c s.psw v⟩
  case cc =>
    have hwork : workIn c (.anyInstructionHalfword f) ⟨s, 0⟩ = .ok () ⟨{ s with psw := withCC s.psw cc }, 0⟩ :=
      workIn_other hop _
    exact ⟨_, execIn_of_work_ok hwork, rfl, getLsbD_withCC s.psw cc 3, getLsbD_withCC s.psw cc 2,
      getLsbD_withCC s.psw cc 1, getLsbD_withCC s.psw cc 0, fun i hi => getLsbD_withCC_of_le hi⟩
  case arithmetic =>
    have hwork := (workIn_other hop ⟨s, 0⟩).trans (run_writeReg_writeCC_writeBcd c (c.isAdd f) d _ _ _ ⟨s, 0⟩)
    refine ⟨_, execIn_of_work_ok hwork, fun hd => ?_, fun n hn hne => ?_, ccOf_flagsWritten ..,
      fun i hi => getLsbD_flagsWritten _ _ _ _ _ hi, ?_⟩
    · exact readStored_writeReg_same s _ hd
    · exact readStored_writeReg_ne s _ hn hne
    · rw [writeReg_frame]

end Sys2Proof.Machine
end

section
/-! One pass of the instruction execution cycle: a rule for each way it ends, and the statements about a step
(spec/40_instruction_cycle.md R120 to R123, R133). -/

namespace Sys2Proof.Machine

open Sys2Proof

/-! ### One rule for each way a pass ends -/

section

variable {c : Config} {meaning : Instr → State → Host.Outcome State Fault Refusal} {s : State}

theorem pass_of_interrupt (hirq : takesInterrupt c s = true) :
    pass c meaning s = .next (takeTrap c .interrupt s.pc s) :=
  if_pos hirq

theorem pass_of_fetch_trap {tr : Trap} {w : Work} (hirq : takesInterrupt c s = false)
    (hf : fetch c s = .trap tr w) : pass c meaning s = .next (abandon c tr s.pc s w) := by
  rw [pass, hirq, hf]
  rfl

theorem pass_of_invalid {h : Halfword} {w : Work} {e : DecodeError} (hirq : takesInterrupt c s = false)
    (hf : fetch c s = .ok h w) (hd : decode c (halfwordBytes h) = .error e) :
    pass c meaning s = .next (abandon c .invalidOpcode (instrStart w.st) w.st ⟨w.st, 0⟩) := by
  simp only [pass, hirq, hf, hd, Bool.false_eq_true, if_false]

theorem pass_of_decoded {h : Halfword} {w : Work} {i : Instr} {rest : List Byte} (hirq : takesInterrupt c s = false)
    (hf : fetch c s = .ok h w) (hd : decode c (halfwordBytes h) = .ok (i, rest)) :
    pass c meaning s = meaning i w.st := by
  simp only [pass, hirq, hf, hd, Bool.false_eq_true, if_false]

end

/-- A step is the pass and then the requests of the next one (60_exceptions.md R177; log 8). -/
theorem stepIn_of_pass {c : Config} {s t : State} (hp : pass c (execIn c) s = .next t) :
    stepIn c s = .next (nextRequests c t) := by
  rw [stepIn, cycle, hp]
  rfl

/-! ### No exit (R120) -/

theorem exists_execIn_eq_next (c : Config) (i : Instr) (s : State) : ∃ t, execIn c i s = .next t :=
  ⟨_, execIn_eq_finish c i s⟩

theorem exists_pass_eq_next (c : Config) (s : State) : ∃ t, pass c (execIn c) s = .next t := by
  cases hirq : takesInterrupt c s with
  | true => exact ⟨_, pass_of_interrupt hirq⟩
  | false =>
    cases hf : fetch c s with
    | trap tr w => exact ⟨_, pass_of_fetch_trap hirq hf⟩
    | ok h w =>
      cases hd : decode c (halfwordBytes h) with
      | error e => exact ⟨_, pass_of_invalid hirq hf hd⟩
      | ok decoded =>
        rw [pass_of_decoded hirq hf hd]
        exact exists_execIn_eq_next c _ _

/-- Settles O9: every way a pass can end is a next state, and every instruction is its work, finished. -/
theorem everyStepHasANextState : Obligations.EveryStepHasANextState := by
  refine ⟨everyStep_of fun c s => ?_, everyMachine_of exists_execIn_eq_next⟩
  obtain ⟨t, ht⟩ := exists_pass_eq_next c s
  exact ⟨_, stepIn_of_pass ht⟩

/-! ### The instruction at the pc (R121 to R123) -/

/-- Settles O5: the pass by its rule for a decoded halfword. -/
theorem stepRunsTheDecodedInstruction : Obligations.StepRunsTheDecodedInstruction := by
  refine ⟨fun c s pa i hirq ht hr hd => ?_, step_eq_stepIn, exec_eq_execIn⟩
  rw [← halfwordBytes_loadBytes] at hd
  rw [stepIn, cycle, pass_of_decoded hirq (fetch_eq_ok ht hr) hd]

/-! ### Interrupts (R133) -/

/-- An outstanding request that is enabled is enough (60_exceptions.md R177). -/
theorem takesInterrupt_of_mem {c : Config} {s : State} {r : Nat} (hmem : r ∈ s.irq)
    (hen : c.irqEnabled (levelOf s.psw) r = true) : takesInterrupt c s = true :=
  List.any_eq_true.2 ⟨r, hmem, hen⟩

/-- The mode after trap entry and what it keeps of the PSW (60_exceptions.md R182). -/
theorem takeTrap_psw_fields (c : Config) (tr : Trap) (start : Word) (s : State) :
    priorOf (takeTrap c tr start s).psw = levelOf s.psw ∧
      levelOf (takeTrap c tr start s).psw = trapLevel c (trapKind tr) (levelOf s.psw) ∧
      ccOf (takeTrap c tr start s).psw = ccOf s.psw ∧ bcdOf c (takeTrap c tr start s).psw = bcdOf c s.psw := by
  simp

/-- Settles O8: the pass is the entry of the interrupt. -/
theorem interruptIsTakenBetweenInstructions : Obligations.InterruptIsTakenBetweenInstructions := by
  refine everyStep_of fun c s r hmem hen => ?_
  obtain ⟨hprior, hlevel, hcc, hbcd⟩ := takeTrap_psw_fields c .interrupt s.pc s
  exact ⟨_, stepIn_of_pass (pass_of_interrupt (takesInterrupt_of_mem hmem hen)), rfl, rfl, hprior, hlevel, hcc, hbcd,
    rfl⟩

/-! ### A fetch that traps (R121) -/

/-- The state after a step whose fetch is in the trap `tr`: its entry, the count of the fetch, and the requests of the
next pass. -/
def fetchTrapped (c : Config) (tr : Trap) (s : State) : State :=
  { takeTrap c tr s.pc s with
    cyc := if c.cycCountsFaulting then s.cyc + 1#32 else s.cyc
    irq := c.irqInput s.draws
    draws := s.draws + 1 }

/-- The fetch has changed nothing yet but the count, which stays, and no value has been drawn. -/
theorem nextRequests_abandon_fetch (c : Config) (tr : Trap) (s : State) :
    nextRequests c (abandon c tr s.pc s (countFaulting c ⟨s, 0⟩)) = fetchTrapped c tr s := by
  unfold nextRequests abandon fetchTrapped countFaulting
  cases c.cycCountsFaulting with
  | false => simp [takeTrap]
  | true => rfl

theorem stepIn_of_access_trap {c : Config} {s : State} {tr : Trap} (hirq : takesInterrupt c s = false)
    (ha : access c .fetch s.pc ⟨s, 0⟩ = .trap tr (countFaulting c ⟨s, 0⟩)) :
    stepIn c s = .next (fetchTrapped c tr s) := by
  rw [stepIn_of_pass (pass_of_fetch_trap hirq (fetch_eq_trap ha)), nextRequests_abandon_fetch]

/-- Settles O7: an access for the fetch that the unit refuses, and one that finds no real memory. -/
theorem fetchTraps : Obligations.FetchTraps := by
  refine everyStep_of fun c s hirq => ⟨fun tr ht => ?refused, fun pa ht hr => ?nonexistent⟩
  case refused =>
    obtain ⟨reason, rfl⟩ := translate_eq_error ht
    obtain ⟨hprior, -, hcc, -⟩ := takeTrap_psw_fields c (.mmu s.pc (c.mmuCause reason)) s.pc s
    exact ⟨_, stepIn_of_access_trap hirq (access_eq_trap.2 ⟨rfl, .inl ht⟩), rfl, ⟨_, rfl⟩, rfl, hprior, hcc, rfl⟩
  case nonexistent =>
    obtain ⟨hprior, -, hcc, -⟩ :=
      takeTrap_psw_fields c (.bus (if c.busTmaVirtual then s.pc else pa) (busCause c .nonexistent)) s.pc s
    exact ⟨_, stepIn_of_access_trap hirq (access_nonexistent hr ht), rfl, rfl, rfl, hprior, hcc, rfl⟩

end Sys2Proof.Machine
end

section
/-! COGET and COSET as a whole (spec/41_coprocessor.md R140 to R147): a rule for each way either one ends, once its
further halfwords are passed. -/

namespace Sys2Proof.Machine

open Sys2Proof

/-! ### Past the further halfwords (log 4) -/

/-- A COGET or COSET begun in `s` with its further halfwords passed: what is left of it is the transfer. -/
def atTransfer (c : Config) (s : State) : Work := ⟨afterHalfwords (coFurtherOf c s) s, coFurtherOf c s⟩

/-- Where the further halfwords can be fetched, there is one way to pass them. -/
theorem skipHalfwords_eq_ok_iff {c : Config} {s : State} {w : Work} (hf : FetchesFurther c (coFurtherOf c s) s) :
    skipHalfwords c (coFurtherOf c s) ⟨s, 0⟩ = .ok () w ↔ w = atTransfer c s := by
  have honly {w : Work} (hw : skipHalfwords c (coFurtherOf c s) ⟨s, 0⟩ = .ok () w) : w = atTransfer c s := by
    rw [skipHalfwords_ok hw, Nat.zero_add]
    rfl
  obtain ⟨w', hw'⟩ := hf
  refine ⟨honly, ?_⟩
  rintro rfl
  rw [hw', honly hw']

/-! ### The acts that trap -/

theorem writeDst_jump_odd (c : Config) {v : Word} (hodd : v.getLsbD 0 = true) (w : Work) :
    writeDst c .jump 0#4 v w = .trap (.bus v 1#2) w :=
  setPc_odd c hodd w

/-- Without an active coprocessor there is nothing for COGET to read (41_coprocessor.md R143, R145). -/
theorem coGetValue_of_not_active {c : Config} {k : Nibble} {w : Work} (hk : k ≠ 0#4)
    (hact : coStateOf c w.st.costat (selectOf w.st.costat) ≠ .active) :
    coGetValue c k w = .trap .coprocessor w := by
  rw [coGetValue_ne_zero c hk, if_neg (mt (coAccessible_iff c w.st.costat).1 hact)]

/-- Nor is there anything for COSET to write. -/
theorem coSetValue_of_not_active {c : Config} {k : Nibble} {w : Work} (hk : k ≠ 0#4)
    (hact : coStateOf c w.st.costat (selectOf w.st.costat) ≠ .active) (v : Word) :
    coSetValue c k v w = .trap .coprocessor w := by
  rw [coSetValue_ne_zero c hk, if_neg (mt (coAccessible_iff c w.st.costat).1 hact)]

/-! ### One rule for each way a COGET or a COSET ends -/

section

variable {c : Config} {s : State} (himp : coImplemented c = true) (hf : FetchesFurther c (coFurtherOf c s) s)

include himp hf

theorem cogetWork_at_transfer (dst k : Nibble) :
    cogetWork c dst k ⟨s, 0⟩ =
      andThen (coGetValue c k (atTransfer c s)) fun v w => endCoInstr c (writeDst c c.cogetZero dst v w) := by
  rw [cogetWork, ifImplemented, if_pos himp, (skipHalfwords_eq_ok_iff hf).2 rfl, andThen_of_ok]

theorem cosetWork_at_transfer (src k : Nibble) :
    cosetWork c src k ⟨s, 0⟩ =
      endCoInstr c (coSetValue c k (readReg (afterHalfwords (coFurtherOf c s) s) src c.cosetZero) (atTransfer c s)) := by
  rw [cosetWork, ifImplemented, if_pos himp, (skipHalfwords_eq_ok_iff hf).2 rfl, andThen_of_ok]
  rfl

theorem execIn_coget_of_ok {dst k : Nibble} {v : Word} {w w' : Work} (hv : coGetValue c k (atTransfer c s) = .ok v w)
    (hd : writeDst c c.cogetZero dst v w = .ok () w') : execIn c (.coget dst k) s = .next (anyCC c w'.st) := by
  refine execIn_of_work_ok (u := ()) (w := updated w' (anyCC c)) ?_
  rw [workIn, cogetWork_at_transfer himp hf, hv, andThen_of_ok, hd]
  rfl

/-- The value goes to a general register. -/
theorem execIn_coget_to_register {dst k : Nibble} {v : Word} {w : Work} (hdst : dst ≠ 0#4)
    (hv : coGetValue c k (atTransfer c s) = .ok v w) :
    execIn c (.coget dst k) s = .next (anyCC c (writeStored w.st dst v)) := by
  rw [← writeReg_ne_zero _ _ _ hdst]
  exact execIn_coget_of_ok himp hf hv (writeDst_eq_ok.2 (.inr (.inr ⟨hdst, rfl⟩)))

/-- The value is an odd jump target: the transfer is undone (60_exceptions.md R184). -/
theorem execIn_coget_to_odd_pc {k : Nibble} {v : Word} {w : Work} (hz : c.cogetZero = .jump)
    (hodd : v.getLsbD 0 = true) (hv : coGetValue c k (atTransfer c s) = .ok v w) :
    execIn c (.coget 0#4 k) s = .next (abandon c (.bus v 1#2) (instrStart s) s w) := by
  refine execIn_of_work_trap ?_
  rw [workIn, cogetWork_at_transfer himp hf, hv, andThen_of_ok, hz, writeDst_jump_odd c hodd]
  rfl

/-- COGET of the active coprocessor (41_coprocessor.md R140, R147). -/
theorem execIn_coget_of_active {dst k : Nibble} (hdst : dst ≠ 0#4) (hk : k ≠ 0#4)
    (hact : coStateOf c s.costat (selectOf s.costat) = .active) :
    let sel := selectOf s.costat
    let r := c.coRead sel k (coopOf s.costat) (unitAt s sel)
    execIn c (.coget dst k) s =
      .next (anyCC c (writeStored (setUnit c sel r.2 (afterHalfwords (coFurtherOf c s) s)) dst r.1)) :=
  execIn_coget_to_register (w := updated (atTransfer c s) _) himp hf hdst
    (coGetValue_eq_ok.2 (.inr ⟨hk, (coAccessible_iff c s.costat).2 hact, rfl, rfl⟩))

theorem execIn_coset_of_ok {src k : Nibble} {w : Work}
    (hv : coSetValue c k (readReg (afterHalfwords (coFurtherOf c s) s) src c.cosetZero) (atTransfer c s) = .ok () w) :
    execIn c (.coset src k) s = .next (anyCC c w.st) := by
  refine execIn_of_work_ok (u := ()) (w := updated w (anyCC c)) ?_
  rw [workIn, cosetWork_at_transfer himp hf, hv]
  rfl

/-- COSET of the active coprocessor (41_coprocessor.md R141, R147). -/
theorem execIn_coset_of_active {src k : Nibble} (hk : k ≠ 0#4)
    (hact : coStateOf c s.costat (selectOf s.costat) = .active) :
    let sel := selectOf s.costat
    let v := readReg (afterHalfwords (coFurtherOf c s) s) src c.cosetZero
    execIn c (.coset src k) s =
      .next (anyCC c (setUnit c sel (c.coWrite sel k (coopOf s.costat) v (unitAt s sel))
        (afterHalfwords (coFurtherOf c s) s))) :=
  execIn_coset_of_ok (w := updated (atTransfer c s) _) himp hf
    (coSetValue_eq_ok.2 (.inr ⟨hk, (coAccessible_iff c s.costat).2 hact, rfl⟩))

theorem execIn_coget_of_not_active {dst k : Nibble} (hk : k ≠ 0#4)
    (hact : coStateOf c s.costat (selectOf s.costat) ≠ .active) :
    execIn c (.coget dst k) s = .next (abandon c .coprocessor (instrStart s) s (atTransfer c s)) := by
  refine execIn_of_work_trap ?_
  rw [workIn, cogetWork_at_transfer himp hf, coGetValue_of_not_active (w := atTransfer c s) hk hact, andThen_of_trap]

theorem execIn_coset_of_not_active {src k : Nibble} (hk : k ≠ 0#4)
    (hact : coStateOf c s.costat (selectOf s.costat) ≠ .active) :
    execIn c (.coset src k) s = .next (abandon c .coprocessor (instrStart s) s (atTransfer c s)) := by
  refine execIn_of_work_trap ?_
  rw [workIn, cosetWork_at_transfer himp hf, coSetValue_of_not_active (w := atTransfer c s) hk hact]
  rfl

end

end Sys2Proof.Machine
end

section
/-! The statements about COGET, COSET, COSTAT and the coprocessors (spec/41_coprocessor.md R140 to R147). -/

namespace Sys2Proof.Machine

open Sys2Proof

/-! ### COGET -/

/-- The unused bits of a read are free, the used ones are those of COSTAT (10_state.md R35). -/
theorem readCostat_and_mask (c : Config) (s : State) :
    (readCostat c s).1 &&& costatMask = s.costat &&& costatMask := by
  refine BitVec.eq_of_getLsbD_eq fun i hi => ?_
  cases hm : costatMask.getLsbD i <;> simp [readCostat, hm]

/-- Settles O31: COSTAT is read whatever the coprocessors are, and goes to the register. -/
theorem cogetOfCostatCompletes : Obligations.CogetOfCostatCompletes := by
  refine everyMachine_of fun c dst s himp hf hdst => ⟨_,
    execIn_coget_to_register himp hf hdst (coGetValue_zero c (atTransfer c s)), ?_, fun n hn hne => ?_, anyCC_frame ..⟩
  · rw [readStored_anyCC, readStored_writeStored_same]
    exact readCostat_and_mask c (afterHalfwords (coFurtherOf c s) s)
  · exact readStored_writeStored_ne _ _ _ _ hn hdst hne

/-- An active coprocessor is one of 1 to 7. -/
theorem ne_zero_of_active {c : Config} {costat : Word} {n : BitVec 3} (h : coStateOf c costat n = .active) :
    n ≠ 0#3 :=
  ne_zero_of_present (coStateOf_eq_active.1 h).1

/-- Settles O32: the general register and the coprocessor by the rules of each write. -/
theorem cogetOfActiveCoprocessorCompletes : Obligations.CogetOfActiveCoprocessorCompletes := by
  refine everyMachine_of fun c dst k s himp hf hdst hk hact => ⟨_, execIn_coget_of_active himp hf hdst hk hact,
    readStored_writeStored_same .., fun n hn hne => ?_, unitAt_setUnit_same .., fun n hn hne => ?_, anyCC_frame ..⟩
  · exact readStored_writeStored_ne _ _ _ _ hn hdst hne
  · exact unitAt_setUnit_ne c _ _ hn (ne_zero_of_active hact) hne

/-- Reading a coprocessor register changes the coprocessors and the draws at most. -/
theorem coGetValue_ok_frame {c : Config} {k : Nibble} {v : Word} {w w' : Work} (h : coGetValue c k w = .ok v w') :
    ∃ co draws, w' = ⟨{ w.st with co := co, draws := draws }, w.ops⟩ := by
  obtain ⟨-, -, rfl⟩ | ⟨-, -, -, rfl⟩ := coGetValue_eq_ok.1 h
  · exact ⟨_, _, rfl⟩
  · exact ⟨_, _, rfl⟩

/-- Settles O33: each reading of destination 0 by the rule of its write, after the value is read. -/
theorem cogetToRegisterZero : Obligations.CogetToRegisterZero := by
  refine everyMachine_of fun c k s w1 w2 v himp hskip hv => ?_
  have hf : FetchesFurther c (coFurtherOf c s) s := ⟨w1, hskip⟩
  obtain rfl := (skipHalfwords_eq_ok_iff hf).1 hskip
  obtain ⟨co, draws, rfl⟩ := coGetValue_ok_frame hv
  refine ⟨fun hz => ?discard, fun hz heven => ?jump, fun hz hodd => ?odd⟩
  case discard =>
    exact ⟨_, execIn_coget_of_ok himp hf hv (writeDst_eq_ok.2 (.inl ⟨rfl, hz, rfl⟩)), anyCC_frame ..⟩
  case jump =>
    exact ⟨_, execIn_coget_of_ok himp hf hv (writeDst_eq_ok.2 (.inr (.inl ⟨rfl, hz, heven, rfl⟩))), anyCC_frame ..⟩
  case odd => exact ⟨_, execIn_coget_to_odd_pc himp hf hz hodd hv, rfl, rfl, rfl, rfl⟩

/-! ### COSET -/

/-- Settles O34: COSTAT takes the used bits of the source, and a coprocessor is lost only where its enable bit
changes. -/
theorem cosetOfCostatCompletes : Obligations.CosetOfCostatCompletes := by
  refine everyMachine_of fun c src s himp hf => ?_
  obtain ⟨hcoop, hselect, henabled⟩ := costat_fields (readReg (afterHalfwords (coFurtherOf c s) s) src c.cosetZero)
  refine ⟨_, execIn_coset_of_ok himp hf (coSetValue_zero c _ (atTransfer c s)), hcoop, hselect, henabled,
    fun n hn hsame => ?_, anyCC_frame ..⟩
  exact (unitAt_writeCostat c _ _ hn).trans (if_neg fun ⟨hpresent, hchanged⟩ => hchanged (hsame hpresent))

/-- Settles O35: the coprocessor by the rules of its write. -/
theorem cosetOfActiveCoprocessorCompletes : Obligations.CosetOfActiveCoprocessorCompletes :=
  everyMachine_of fun c _ _ _ himp hf hk hact => ⟨_, execIn_coset_of_active himp hf hk hact, unitAt_setUnit_same ..,
    fun _ hn hne => unitAt_setUnit_ne c _ _ hn (ne_zero_of_active hact) hne, anyCC_frame ..⟩

/-! ### The traps -/

/-- Settles O36: both instructions end in the entry of one trap, with nothing done but the halfwords passed. -/
theorem coprocessorTrapUnlessActive : Obligations.CoprocessorTrapUnlessActive := by
  refine everyMachine_of fun c r k s himp hk hact => ?_
  obtain ⟨hprior, -, hcc, -⟩ := takeTrap_psw_fields c .coprocessor (instrStart s) s
  exact ⟨fun hf => ⟨_, execIn_coget_of_not_active himp hf hk hact, rfl, rfl, hprior, hcc, rfl⟩,
    fun hf => ⟨_, execIn_coset_of_not_active himp hf hk hact, rfl, rfl, hprior, hcc, rfl⟩⟩

theorem mem_coNumbers {n : BitVec 3} (hn : n ≠ 0#3) : n ∈ coNumbers := by
  revert n
  decide

/-- Only a machine without coprocessors lacks the instructions (41_coprocessor.md R144). -/
theorem present_eq_false_of_not_implemented {c : Config} (himp : coImplemented c = false) (n : BitVec 3) :
    present c n = false := by
  simp only [coImplemented, Bool.or_eq_false_iff, List.any_eq_false, Bool.not_eq_true] at himp
  obtain ⟨-, hnone⟩ := himp
  by_cases hn : n = 0#3
  · rw [hn, present]
    rfl
  · exact hnone n (mem_coNumbers hn)

/-- An unimplemented instruction does nothing before its trap. -/
theorem execIn_of_invalid_at_start {c : Config} {i : Instr} {s : State}
    (hw : workIn c i ⟨s, 0⟩ = .trap .invalidOpcode ⟨s, 0⟩) :
    execIn c i s = .next (takeTrap c .invalidOpcode (s.pc - 2#32) s) := by
  rw [execIn_of_work_trap hw, abandon_at_start, instrStart]

/-- Settles O37: the check for the instructions comes first. -/
theorem unimplementedCoprocessorInstructionsTrap : Obligations.UnimplementedCoprocessorInstructionsTrap := by
  refine everyMachine_of fun c r k s himp => ⟨present_eq_false_of_not_implemented himp,
    execIn_of_invalid_at_start ?_, execIn_of_invalid_at_start ?_⟩
  · rw [workIn, cogetWork, ifImplemented, himp]
    rfl
  · rw [workIn, cosetWork, ifImplemented, himp]
    rfl

/-! ### A coprocessor of plain storage (R147) -/

/-- A register that a coprocessor has survives the loss of those it has not. -/
theorem reg_restrictUnit {c : Config} {n : BitVec 3} {k : Nibble} (hk : k ≠ 0#4) (hreg : c.coRegs n k = true)
    (u : CoUnit) :
    ((restrictUnit c n u).regs[k.toNat - 1]?).getD 0#32 = (u.regs[k.toNat - 1]?).getD 0#32 := by
  have hlt := nibble_index_lt k
  have hpos : 0 < k.toNat := Nat.pos_of_ne_zero fun h => hk (BitVec.eq_of_toNat_eq h)
  have hplace : BitVec.ofNat 4 (k.toNat - 1 + 1) = k := by
    rw [Nat.sub_add_cancel hpos, BitVec.ofNat_toNat, BitVec.setWidth_eq]
  simp [restrictUnit, hlt, hplace, hreg]

/-- Plain storage holds what was last written to a register that it has. -/
theorem PlainStorage.coReg_setUnit_coWrite {c : Config} {n : BitVec 3} {k : Nibble} (h : PlainStorage c n)
    (hk : k ≠ 0#4) (hreg : c.coRegs n k = true) (coop : Nibble) (v : Word) (u : CoUnit) (s : State) :
    coReg (setUnit c n (c.coWrite n k coop v u) s) n k = v := by
  rw [coReg, unitAt_setUnit_same, reg_restrictUnit hk hreg, h.write]
  simp [nibble_index_lt]

/-- Without further halfwords there is none that cannot be fetched. -/
theorem fetchesFurther_of_eq_zero {c : Config} {n : Nat} (s : State) (hn : n = 0) : FetchesFurther c n s := by
  rw [hn]
  exact ⟨_, rfl⟩

/-- COSET of one halfword puts the word into the register, and COSTAT stays. -/
theorem execIn_coset_of_plainStorage {c : Config} {s : State} {src k : Nibble} (himp : coImplemented c = true)
    (hlen : coFurtherOf c s = 0) (hsrc : src ≠ 0#4) (hk : k ≠ 0#4)
    (hact : coStateOf c s.costat (selectOf s.costat) = .active) (hplain : PlainStorage c (selectOf s.costat))
    (hreg : c.coRegs (selectOf s.costat) k = true) :
    ∃ t, execIn c (.coset src k) s = .next t ∧ t.costat = s.costat ∧
      coReg t (selectOf s.costat) k = readStored s src := by
  refine ⟨_, execIn_coset_of_active himp (fetchesFurther_of_eq_zero s hlen) hk hact, rfl, ?_⟩
  refine (hplain.coReg_setUnit_coWrite hk hreg ..).trans ?_
  exact readReg_ne_zero (afterHalfwords (coFurtherOf c s) s) src c.cosetZero hsrc

/-- COGET of one halfword reads the register. -/
theorem execIn_coget_of_plainStorage {c : Config} {s : State} {dst k : Nibble} (himp : coImplemented c = true)
    (hlen : coFurtherOf c s = 0) (hdst : dst ≠ 0#4) (hk : k ≠ 0#4)
    (hact : coStateOf c s.costat (selectOf s.costat) = .active) (hplain : PlainStorage c (selectOf s.costat)) :
    ∃ t, execIn c (.coget dst k) s = .next t ∧ readStored t dst = coReg s (selectOf s.costat) k := by
  refine ⟨_, execIn_coget_of_active himp (fetchesFurther_of_eq_zero s hlen) hdst hk hact, ?_⟩
  rw [readStored_anyCC, readStored_writeStored_same, hplain.read, coReg]

/-- Settles O38: the word is in the coprocessor after COSET, which leaves COSTAT, so COGET finds it there. -/
theorem storageCoprocessorGivesBackTheWord : Obligations.StorageCoprocessorGivesBackTheWord := by
  refine everyMachine_of fun c src dst k s himp hlen hsrc hdst hk hact hplain hreg => ?_
  obtain ⟨t, hset, hcostat, hword⟩ := execIn_coset_of_plainStorage himp hlen hsrc hk hact hplain hreg
  refine ⟨t, hset, hword, fun h hshort => ?_⟩
  rw [← hcostat] at hact hplain hword
  obtain ⟨t', hget, hback⟩ := execIn_coget_of_plainStorage (s := { t with ir := h }) himp hshort hdst hk hact hplain
  exact ⟨t', hget, hback.trans hword⟩

end Sys2Proof.Machine
end

section
/-! The special registers (spec/42_special_register_access.md R150 to R158): a rule for privileged and one for
unprivileged code, what a read of the PSW shows, and the statements about both. -/

namespace Sys2Proof.Machine

open Sys2Proof

/-! ### Privilege (R158) -/

theorem guardPrivilege_of_privileged {α : Type} {c : Config} {w : Work} (h : inPrivileged c w.st = true)
    (r : Result α) : guardPrivilege c w r = r := by
  rw [guardPrivilege, if_pos h]

theorem guardPrivilege_of_unprivileged {α : Type} {c : Config} {w : Work} (h : inPrivileged c w.st = false)
    (r : Result α) : guardPrivilege c w r = .trap .privilege w := by
  rw [guardPrivilege, h]
  rfl

theorem readSpecial_of_unprivileged {c : Config} {reg : SpecialReg} {w : Work} (h : inPrivileged c w.st = false)
    (hreg : reg ≠ .psw) : readSpecial c reg w = .trap .privilege w := by
  cases reg with
  | psw => exact absurd rfl hreg
  | tpc | tma | tsv | cyc | mmudata => exact guardPrivilege_of_unprivileged h _

theorem writeSpecial_of_unprivileged {c : Config} {reg : SpecialReg} {w : Work} (h : inPrivileged c w.st = false)
    (hreg : reg ≠ .psw) (v : Word) : writeSpecial c reg v w = .trap .privilege w := by
  cases reg with
  | psw => exact absurd rfl hreg
  | tpc | tma | tsv | cyc | mmudata => exact guardPrivilege_of_unprivileged h _

/-- Settles O27: every register but the PSW is guarded, in both directions. -/
theorem privilegedRegistersTrap : Obligations.PrivilegedRegistersTrap := fun _ _ v _ h hreg =>
  ⟨readSpecial_of_unprivileged h hreg, writeSpecial_of_unprivileged h hreg v⟩

/-! ### Registers that hold a word (R152 to R155) -/

/-- A guarded write that leaves the PSW is followed by code that is still privileged, so the guarded read finds what
the write has put there. -/
theorem guardPrivilege_write_then_read {c : Config} {v : Word} {w : Work} (h : inPrivileged c w.st = true)
    (put : State → State) (get : State → Word) (hpsw : (put w.st).psw = w.st.psw) (hget : get (put w.st) = v) :
    ∃ w', guardPrivilege c w (.ok () (updated w put)) = .ok () w' ∧ w'.st = put w.st ∧
      guardPrivilege c w' (.ok (get w'.st) w') = .ok v w' := by
  have hstill : inPrivileged c (put w.st) = true := by rw [inPrivileged, hpsw]; exact h
  refine ⟨updated w put, guardPrivilege_of_privileged h _, rfl, ?_⟩
  rw [guardPrivilege_of_privileged (w := updated w put) hstill, updated_st, hget]

/-- Settles O26: none of the writes touches the PSW. -/
theorem specialRegistersHoldWhatIsWritten : Obligations.SpecialRegistersHoldWhatIsWritten := fun _ v _ h =>
  ⟨guardPrivilege_write_then_read h (fun s => { s with tpc := v }) State.tpc rfl rfl,
    guardPrivilege_write_then_read h (fun s => { s with tma := v }) State.tma rfl rfl,
    guardPrivilege_write_then_read h (fun s => { s with tsv := v }) State.tsv rfl rfl,
    guardPrivilege_write_then_read h (fun s => { s with cyc := v }) State.cyc rfl rfl,
    guardPrivilege_of_privileged h _, guardPrivilege_of_privileged h _⟩

/-! ### The PSW (R151) -/

/-- The unused bits of a read are free, the used ones are those of the PSW (10_state.md R43). -/
theorem readPsw_and_pswMask (c : Config) (s : State) : (readPsw c s).1 &&& pswMask c = s.psw &&& pswMask c := by
  refine BitVec.eq_of_getLsbD_eq fun i hi => ?_
  cases hm : (pswMask c).getLsbD i <;> simp [readPsw, hm]

/-- Bit 3 of the level is bit 31 of the PSW (20_memory.md R74). -/
theorem unitOn_eq_getLsbD (psw : Word) : unitOn psw = psw.getLsbD 31 := by
  simp [unitOn, levelOf]

/-- A write of the PSW that is let through puts the used bits of the value there. -/
theorem writePsw_of_allowed {c : Config} {v : Word} {w : Work}
    (h : inPrivileged c w.st = true ∨ levelOf v = levelOf w.st.psw ∧ priorOf v = priorOf w.st.psw) :
    writePsw c v w = .ok () (updated w fun s => { s with psw := v &&& pswMask c }) :=
  writePsw_eq_ok.2 ⟨h.imp_right (level_prior_iff v _).2, rfl⟩

theorem writePsw_of_refused {c : Config} {v : Word} {w : Work} (h : inPrivileged c w.st = false)
    (hchange : ¬(levelOf v = levelOf w.st.psw ∧ priorOf v = priorOf w.st.psw)) :
    writePsw c v w = .trap .privilege w := by
  rw [← level_prior_iff] at hchange
  rw [writePsw, if_neg (by simp [h, hchange])]

/-- Settles O28: the mask keeps every field, and a second masking changes nothing. -/
theorem pswWriteSetsEveryField : Obligations.PswWriteSetsEveryField := by
  intro c v w h
  refine ⟨_, writePsw_of_allowed (.inl h), levelOf_and_pswMask c v, priorOf_and_pswMask c v, ccOf_and_pswMask c v,
    bcdOf_and_pswMask c v, ?unit, rfl, _, _, rfl, ?read⟩
  case unit => exact (unitOn_of_level_eq (levelOf_and_pswMask c v)).trans (unitOn_eq_getLsbD v)
  case read =>
    calc _ = (v &&& pswMask c) &&& pswMask c := readPsw_and_pswMask c _
      _ = v &&& pswMask c := by rw [BitVec.and_assoc, BitVec.and_self]

/-- Settles O29: level and prior of the value decide, and are then those that stood there. -/
theorem pswWriteByUnprivilegedCode : Obligations.PswWriteByUnprivilegedCode := by
  intro c v w h
  refine ⟨fun ⟨hlevel, hprior⟩ => ?same, writePsw_of_refused h, _, _, rfl, readPsw_and_pswMask c w.st⟩
  case same =>
    exact ⟨_, writePsw_of_allowed (.inr ⟨hlevel, hprior⟩), (levelOf_and_pswMask c v).trans hlevel,
      (priorOf_and_pswMask c v).trans hprior, ccOf_and_pswMask c v, bcdOf_and_pswMask c v, rfl⟩

end Sys2Proof.Machine
end

section
/-! Trap entry (spec/60_exceptions.md R174 to R188): what it makes of the mode, that traps are precise, the traps of an
invalid operation code and of a privileged instruction, and the mode of unprivileged code till it traps. -/

namespace Sys2Proof.Machine

open Sys2Proof

/-! ### The entry (R179 to R184) -/

/-- Settles O22: the fields of the PSW by its rule, and the vector is even. -/
theorem trapEntryChangesTheMode : Obligations.TrapEntryChangesTheMode := by
  intro c tr start s t
  obtain ⟨hprior, -, hcc, hbcd⟩ := takeTrap_psw_fields c tr start s
  exact ⟨inPrivileged_takeTrap .., getLsbD_trapVector_zero .., hprior, hcc, hbcd, rfl, rfl, rfl, rfl, rfl, rfl, rfl,
    rfl⟩

/-- Settles O23: the instruction is abandoned, whatever its work had done. -/
theorem trapsArePrecise : Obligations.TrapsArePrecise := by
  refine everyMachine_of fun c i s tr w hw => ?_
  obtain ⟨hprior, -, hcc, hbcd⟩ := takeTrap_psw_fields c tr (instrStart s) s
  exact ⟨_, execIn_of_work_trap hw, rfl, rfl, rfl, rfl, hprior, hcc, hbcd, rfl⟩

/-! ### An invalid operation code (R174) -/

/-- Past its first halfword, an instruction still begins where the fetch was. -/
theorem instrStart_of_pc_eq {s t : State} (h : t.pc = s.pc + 2#32) : instrStart t = s.pc := by
  rw [instrStart, h, BitVec.add_sub_cancel]

/-- Settles O6: the halfword is fetched and counted, and then the trap is entered from its address. -/
theorem invalidOpcodeTraps : Obligations.InvalidOpcodeTraps := by
  refine everyStep_of fun c s pa e hirq ht hr hd => ?_
  rw [← halfwordBytes_loadBytes] at hd
  obtain ⟨hprior, hlevel, hcc, -⟩ := takeTrap_psw_fields c .invalidOpcode s.pc s
  refine ⟨_, stepIn_of_pass (pass_of_invalid hirq (fetch_eq_ok ht hr) hd), instrStart_of_pc_eq rfl, rfl, rfl, hprior,
    hlevel, hcc, rfl, rfl, rfl, rfl, rfl, rfl, ?cyc⟩
  case cyc => exact BitVec.add_zero (s.cyc + 1#32)

/-! ### A privileged instruction (R175) -/

/-- An instruction in a trap before it has done anything is the entry of that trap. -/
theorem execIn_of_trap_at_start {c : Config} {i : Instr} {s : State} {tr : Trap}
    (hw : workIn c i ⟨s, 0⟩ = .trap tr ⟨s, 0⟩) : execIn c i s = .next (takeTrap c tr (s.pc - 2#32) s) := by
  rw [execIn_of_work_trap hw, abandon_at_start, instrStart]

/-- Settles O45: the check comes first, and in privileged code it does nothing. -/
theorem privilegedInstructionTraps : Obligations.PrivilegedInstructionTraps := by
  refine everyMachine_of fun c f s n p hop => ?_
  have hwork : workIn c (.anyInstructionHalfword f) ⟨s, 0⟩ = guardPrivilege c ⟨s, 0⟩ (run c (c.isAdd f) p ⟨s, 0⟩) :=
    workIn_other hop _
  refine ⟨fun hs => ?unprivileged, fun hs => ?privileged⟩
  case unprivileged =>
    rw [guardPrivilege_of_unprivileged (w := ⟨s, 0⟩) hs] at hwork
    obtain ⟨hprior, -, hcc, -⟩ := takeTrap_psw_fields c .privilege (s.pc - 2#32) s
    exact ⟨_, execIn_of_trap_at_start hwork, rfl, rfl, hprior, hcc, rfl⟩
  case privileged => rw [execIn_eq_finish, hwork, guardPrivilege_of_privileged (w := ⟨s, 0⟩) hs]

/-! ### The mode of unprivileged code (R188) -/

/-- Level and prior are as in `s`. -/
structure KeepsMode (s t : State) : Prop where
  level : levelOf t.psw = levelOf s.psw
  prior : priorOf t.psw = priorOf s.psw

theorem KeepsMode.trans {s t t' : State} (h : KeepsMode s t) (h' : KeepsMode t t') : KeepsMode s t' :=
  ⟨h'.level.trans h.level, h'.prior.trans h.prior⟩

/-- An update that leaves the PSW. -/
theorem KeepsMode.keep {s t t' : State} (h : KeepsMode s t) (hpsw : t'.psw = t.psw) : KeepsMode s t' :=
  h.trans ⟨congrArg levelOf hpsw, congrArg priorOf hpsw⟩

/-- Code of the same level is as unprivileged as before. -/
theorem KeepsMode.unprivileged {c : Config} {s t : State} (h : KeepsMode s t) (hs : inPrivileged c s = false) :
    inPrivileged c t = false :=
  (inPrivileged_of_level_eq c h.level).trans hs

/-- The one write of a special register that unprivileged code completes is of the PSW, with its own level and prior in
it (42_special_register_access.md R151, R158). -/
theorem KeepsMode.writeSpecial {c : Config} {r : SpecialReg} {v : Word} {u : Unit} {w w' : Work}
    (hs : inPrivileged c w.st = false) (hw : writeSpecial c r v w = .ok u w') : KeepsMode w.st w'.st := by
  obtain ⟨hpriv | ⟨rfl, hsame⟩, rfl⟩ := writeSpecial_eq_ok.1 hw
  · rw [hs] at hpriv
    cases hpriv
  · obtain ⟨hlevel, hprior⟩ := (level_prior_iff v _).1 hsame
    exact ⟨(levelOf_and_pswMask c v).trans hlevel, (priorOf_and_pswMask c v).trans hprior⟩

/-- A return from trap never completes in unprivileged code, and no other primitive changes the mode there. -/
theorem KeepsMode.work {c : Config} {i : Instr} {s : State} {w w' : Work} {u : Unit} (hs : inPrivileged c s = false)
    (h : KeepsMode s w.st) (hw : workIn c i w = .ok u w') : KeepsMode s w'.st :=
  work_induct (P := fun w => KeepsMode s w.st) (Q := fun w => KeepsMode s w.st) i (fun _ _ => writesOnly_true _)
    (hdone := fun _ h => h)
    (hskip := fun _ _ h => h.keep rfl)
    (hdraw := fun _ h => h.keep rfl)
    (hunit := fun _ _ _ _ h => h.keep rfl)
    (hcostat := fun _ _ h => h.keep rfl)
    (hpc := fun _ _ _ h => h.keep rfl)
    (hreg := fun w n v h => h.keep (writeReg_psw w.st n v))
    (hcc := fun w cc h => h.trans ⟨levelOf_withCC w.st.psw cc, priorOf_withCC w.st.psw cc⟩)
    (hread := fun _ _ _ _ _ h => h.keep rfl)
    (hstore := fun _ _ _ _ _ _ _ h => h.keep rfl)
    (hnext := fun _ _ _ _ h => h.keep rfl)
    (hbcd := fun w v _ h => h.trans ⟨levelOf_withBcd c w.st.psw v, priorOf_withBcd c w.st.psw v⟩)
    (hspecial := fun _ _ _ _ _ _ hw h => h.trans (KeepsMode.writeSpecial (h.unprivileged hs) hw))
    (hreturn := fun _ _ hpriv _ h => by rw [h.unprivileged hs] at hpriv; cases hpriv)
    h hw

/-- Settles O52: the work of an instruction that does not trap keeps the mode. -/
theorem unprivilegedCodeChangesModeByTrapOnly : Obligations.UnprivilegedCodeChangesModeByTrapOnly := by
  refine everyMachine_of fun c i s t hs ht => ?_
  obtain ⟨w, u, hw, rfl⟩ | htrap := exec_cases ht
  · have hmode : KeepsMode s w.st := KeepsMode.work (w := ⟨s, 0⟩) hs ⟨rfl, rfl⟩ hw
    exact .inr ⟨hmode.level, hmode.prior⟩
  · exact .inl htrap

end Sys2Proof.Machine
end

section
/-! The return from a trap (spec/60_exceptions.md R185): a rule for each way it ends, right after the entry of a trap
and as an instruction. -/

namespace Sys2Proof.Machine

open Sys2Proof

/-! ### One rule for each way a return ends (log 18) -/

/-- The state a return from trap goes on in: the one the trap was taken in, as far as `tpc` and `prior` tell. -/
def returned (f : Nibble → Nibble) (s : State) : State :=
  { s with
    pc := s.tpc
    psw := withLevel (withPrior s.psw (f (priorOf s.psw))) (priorOf s.psw) }

theorem trapReturn_even {c : Config} (f : Nibble → Nibble) {w : Work} (hpriv : inPrivileged c w.st = true)
    (heven : w.st.tpc.getLsbD 0 = false) : trapReturn c f w = .ok () (updated w (returned f)) :=
  trapReturn_eq_ok.2 ⟨hpriv, heven, rfl⟩

theorem trapReturn_odd {c : Config} (f : Nibble → Nibble) {w : Work} (hpriv : inPrivileged c w.st = true)
    (hodd : w.st.tpc.getLsbD 0 = true) : trapReturn c f w = .trap (.bus w.st.tpc 1#2) w := by
  rw [trapReturn, guardPrivilege_of_privileged hpriv, setPc_odd c hodd, andThen_of_trap]

theorem returned_psw_fields (c : Config) (f : Nibble → Nibble) (s : State) :
    levelOf (returned f s).psw = priorOf s.psw ∧ priorOf (returned f s).psw = f (priorOf s.psw) ∧
      ccOf (returned f s).psw = ccOf s.psw ∧ bcdOf c (returned f s).psw = bcdOf c s.psw := by
  simp [returned]

/-! ### Right after the entry (R185) -/

/-- Settles O25: `prior` holds the old level and `tpc` the address, where trap entry has put them. -/
theorem returnUndoesTrapEntry : Obligations.ReturnUndoesTrapEntry := by
  intro c f tr start s n
  have hpriv : inPrivileged c (takeTrap c tr start s) = true := inPrivileged_takeTrap ..
  refine ⟨fun heven => ?even, fun hodd => trapReturn_odd f hpriv hodd⟩
  case even =>
    obtain ⟨hprior, -, hcc, hbcd⟩ := takeTrap_psw_fields c tr start s
    obtain ⟨hlevel, -, hccBack, hbcdBack⟩ := returned_psw_fields c f (takeTrap c tr start s)
    have hlevelBack := hlevel.trans hprior
    exact ⟨_, trapReturn_even f hpriv heven, rfl, hlevelBack, unitOn_of_level_eq hlevelBack, hccBack.trans hcc,
      hbcdBack.trans hbcd, rfl⟩

/-! ### The instruction (R185, 42 R151, R158) -/

/-- The level that a return goes to has the unit on where bit 3 of `prior`, bit 27 of the PSW, is set. -/
theorem unitOn_returned (f : Nibble → Nibble) (s : State) : unitOn (returned f s).psw = s.psw.getLsbD 27 := by
  simp [returned, unitOn_withLevel, priorOf]

/-- Settles O46: the work is the return, by its rule for each kind of code. -/
theorem returnInstructionCompletes : Obligations.ReturnInstructionCompletes := by
  refine everyMachine_of fun c f s g hop => ?_
  have hwork : workIn c (.anyInstructionHalfword f) ⟨s, 0⟩ = trapReturn c g ⟨s, 0⟩ := workIn_other hop _
  refine ⟨fun hpriv heven => ?privileged, fun hunpriv => ?unprivileged⟩
  case privileged =>
    obtain ⟨hlevel, hprior, hcc, hbcd⟩ := returned_psw_fields c g s
    exact ⟨_, execIn_of_work_ok (hwork.trans (trapReturn_even g hpriv heven)), rfl, hlevel, hprior,
      unitOn_returned g s, hcc, hbcd, rfl⟩
  case unprivileged => exact execIn_of_trap_at_start (hwork.trans (trapReturn_unprivileged g hunpriv))

end Sys2Proof.Machine
end

section
/-! Reset (spec/70_reset_and_hazards.md R200, R201): the state that given reset values leave has the invariant, the
state of zeros is one of them, and reset values can be read back out of every state with the invariant. -/

namespace Sys2Proof.Machine

open Sys2Proof

/-! ### What each part of a reset state keeps -/

/-- The pc that reset makes of `RESET_PC` is even (10_state.md R57). -/
theorem getLsbD_zero_append_zero (hi : BitVec 31) : (hi ++ 0#1 : Word).getLsbD 0 = false := by
  rw [BitVec.getLsbD_append]
  simp

theorem costatUnused_and (v : Word) : (v &&& costatMask) &&& ~~~costatMask = 0#32 := by
  rw [BitVec.and_assoc, BitVec.and_not_self]
  exact BitVec.and_zero

/-- A coprocessor with nothing in it is restricted already. -/
theorem restrictUnit_zero (c : Config) (n : BitVec 3) :
    restrictUnit c n ⟨Vector.replicate 15 0#32, 0⟩ = ⟨Vector.replicate 15 0#32, 0⟩ := by
  simp only [restrictUnit, CoUnit.mk.injEq, and_true]
  refine Vector.ext fun i hi => ?_
  simp

theorem resetWith_co (c : Config) (r : ResetValues) (i : Fin 7) :
    (resetWith c r).co[i] =
      if present c (coNumberAt i) then restrictUnit c (coNumberAt i) r.co[i]
      else ⟨Vector.replicate 15 0#32, 0⟩ := by
  simp [resetWith]

/-- Every choice of the open reset values leaves a state with the invariant (R201). -/
theorem Inv.resetWith (c : Config) (r : ResetValues) : Inv c (resetWith c r) where
  pcEven := getLsbD_zero_append_zero r.pcHigh
  mmuOk := mmuOk_resetMmu c r.mmu
  memWf := wf_resetMemory c r.image
  memReal := real_resetMemory c r.image
  pswUnused := pswUnused_and c _
  costatUnused := costatUnused_and r.costat
  coRestricted i := by
    rw [resetWith_co]
    split
    · exact restrictUnit_idem ..
    · exact restrictUnit_zero ..
  coAbsent i habs := by rw [resetWith_co, habs, if_neg Bool.false_ne_true]

/-! ### The reset values that leave a given state -/

/-- The reset values read out of a state: each field as it stands there. -/
def resetValuesOf (s : State) : ResetValues where
  pcHigh := s.pc.extractLsb' 1 31
  level := levelOf s.psw
  pswRest := s.psw.extractLsb' 0 28
  regs := s.regs
  costat := s.costat
  tpc := s.tpc
  tma := s.tma
  tsv := s.tsv
  cyc := s.cyc
  mmu := s.mmu
  ir := s.ir
  irq := s.irq
  co := s.co
  image := s.mem

/-- An even word is its upper 31 bits over a 0. -/
theorem append_zero_of_even {a : Word} (h : a.getLsbD 0 = false) : (a.extractLsb' 1 31 ++ 0#1 : Word) = a := by
  have hlow : a.extractLsb' 0 1 = 0#1 := by
    refine BitVec.eq_of_getLsbD_eq fun i hi => ?_
    rw [BitVec.getLsbD_extractLsb', Nat.lt_one_iff.1 hi]
    simpa using h
  rw [← hlow]
  exact BitVec.extractLsb'_append_extractLsb'

/-- A word is its `level` over the other 28 bits. -/
theorem level_append_rest (p : Word) : (levelOf p ++ p.extractLsb' 0 28 : Word) = p :=
  BitVec.extractLsb'_append_extractLsb'

/-- A word that holds nothing outside a mask is not changed by it. -/
theorem and_eq_self_of_unused {v m : Word} (h : v &&& ~~~m = 0#32) : v &&& m = v := by
  refine BitVec.eq_of_getLsbD_eq fun i hi => ?_
  have hbit : v.getLsbD i = true → m.getLsbD i = true := (and_not_eq_zero_iff v m).1 h i hi
  rw [BitVec.getLsbD_and, Bool.and_eq_left_iff_imp]
  exact hbit

/-- The coprocessors of a state with the invariant, each with no more than it has, are left as they are. -/
theorem Inv.resetWith_resetValuesOf_co {c : Config} {s : State} (h : Inv c s) :
    (Machine.resetWith c (resetValuesOf s)).co = s.co := by
  refine Vector.ext fun i hi => ?_
  refine (resetWith_co c (resetValuesOf s) ⟨i, hi⟩).trans ?_
  split
  · exact h.coRestricted ⟨i, hi⟩
  · next habs => exact (h.coAbsent ⟨i, hi⟩ (Bool.eq_false_of_not_eq_true habs)).symm

/-- No constraint that reset puts on its values changes those of a state with the invariant (R201). -/
theorem Inv.resetWith_resetValuesOf {c : Config} {s : State} (h : Inv c s) :
    Machine.resetWith c (resetValuesOf s) = { s with draws := 0 } := by
  have hpc : (s.pc.extractLsb' 1 31 ++ 0#1 : Word) = s.pc := append_zero_of_even h.pcEven
  have hpsw : (levelOf s.psw ++ s.psw.extractLsb' 0 28 : Word) &&& pswMask c = s.psw := by
    rw [level_append_rest, and_eq_self_of_unused h.pswUnused]
  have hcostat : s.costat &&& costatMask = s.costat := and_eq_self_of_unused h.costatUnused
  have hmmu : resetMmu c s.mmu = s.mmu := resetMmu_eq_self h.mmuOk
  have hmem : resetMemory c s.mem = s.mem := resetMemory_eq_self h.memWf h.memReal
  rw [State.mk.injEq]
  exact ⟨rfl, hpc, hpsw, hcostat, rfl, rfl, rfl, rfl, hmmu, rfl, rfl, h.resetWith_resetValuesOf_co, hmem, rfl⟩

/-! ### The reset state of zeros (log 5) -/

theorem stateReset_eq (c : Config) : State.reset = resetWith c zeroReset := by
  have hco : State.reset.co = (resetWith c zeroReset).co := by
    refine Vector.ext fun i hi => ?_
    refine Eq.trans ?_ (resetWith_co c zeroReset ⟨i, hi⟩).symm
    simp [State.reset, zeroReset, restrictUnit_zero]
  have hpsw : 0#32 = (0#4 ++ 0#28 : Word) &&& pswMask c := BitVec.zero_and.symm
  rw [State.mk.injEq]
  exact ⟨rfl, rfl, hpsw, rfl, rfl, rfl, rfl, rfl, rfl, rfl, rfl, hco, rfl, rfl⟩

theorem Inv.stateReset (c : Config) : Inv c State.reset :=
  stateReset_eq c ▸ Inv.resetWith c zeroReset

/-! ### The statements about reset -/

/-- What R201 asks of a reset state is a part of the invariant. -/
theorem Inv.isResetState {c : Config} {s : State} (h : Inv c s) : IsResetState c s where
  pcEven := h.pcEven
  mmuOk := h.mmuOk

/-- Settles O56: each constraint that `resetWith` puts on the reset values gives its part of the invariant. -/
theorem resetHasTheInvariant : Obligations.ResetHasTheInvariant :=
  fun c => ⟨Inv.resetWith c, Inv.stateReset c, stateReset_eq c⟩

/-- Settles O57: R201 is a part of the invariant, and the reset values of a state are read out of it. -/
theorem resetIsAPermittedState : Obligations.ResetIsAPermittedState := by
  refine ⟨fun c => ⟨fun r => (Inv.resetWith c r).isResetState, (Inv.stateReset c).isResetState⟩,
    fun c s h hdraws => ⟨h.isResetState, resetValuesOf s, ?_⟩⟩
  calc s = { s with draws := 0 } := by rw [← hdraws]
    _ = resetWith c (resetValuesOf s) := h.resetWith_resetValuesOf.symm

end Sys2Proof.Machine
end
